-- ==== Sys2Proof/Word.lean ====
section
/-! DEFINITION. The two data widths of the machine: the 16-bit Word and the 8-bit byte of the character interfaces. -/

namespace Sys2Proof

/-- A Word, "an unsigned 16-bit integer; all arithmetic on it wraps modulo 2^16" (00_scope.md R8).
It is a register's content, a memory cell's content, an address, and an instruction. -/
abbrev Word := BitVec 16

/-- A byte of the keyboard and output interfaces (00_scope.md R10, R12, R13). -/
abbrev Byte := BitVec 8

end Sys2Proof
end

