-- ==== Sys2Proof/Syntax.lean ====
section
/-! DEFINITION. The instructions: one constructor for each row of spec/opcode_table.json. -/

namespace Sys2Proof

/-- The eight general registers R0 to R7 (10_state.md R20). -/
inductive Reg where
  | r0 | r1 | r2 | r3 | r4 | r5 | r6 | r7
  deriving DecidableEq, Repr

/-- The instructions (30_encoding.md R85, R86, R87, R88, R89). A field keeps the name and the width of R82.
The bits no handler reads (R90) are kept as fields `unread`, so that a constructor stands for its words exactly;
no meaning looks at them, and a fault record's `ir` is the whole word. -/
inductive Instr where
  /-- ADD.r, `0001dddsss0xxttt` (40_operate.md R110). -/
  | addR (dr sr1 : Reg) (unread : BitVec 2) (sr2 : Reg)
  /-- ADD.i, `0001dddsss1iiiii` (40_operate.md R111). -/
  | addI (dr sr1 : Reg) (imm5 : BitVec 5)
  /-- AND.r, `0101dddsss0xxttt` (40_operate.md R112). -/
  | andR (dr sr1 : Reg) (unread : BitVec 2) (sr2 : Reg)
  /-- AND.i, `0101dddsss1iiiii` (40_operate.md R113). -/
  | andI (dr sr1 : Reg) (imm5 : BitVec 5)
  /-- NOT, `1001dddsssxxxxxx` (40_operate.md R114). -/
  | not (dr sr1 : Reg) (unread : BitVec 6)
  /-- LD, `0010dddiiiiiiiii` (41_load_store.md R120). -/
  | ld (dr : Reg) (off9 : BitVec 9)
  /-- LDI, `1010dddiiiiiiiii` (41_load_store.md R121). -/
  | ldi (dr : Reg) (off9 : BitVec 9)
  /-- LEA, `1110dddiiiiiiiii` (41_load_store.md R123). -/
  | lea (dr : Reg) (off9 : BitVec 9)
  /-- ST, `0011dddiiiiiiiii` (41_load_store.md R124). -/
  | st (sr : Reg) (off9 : BitVec 9)
  /-- STI, `1011dddiiiiiiiii` (41_load_store.md R125). -/
  | sti (sr : Reg) (off9 : BitVec 9)
  /-- LDR, `0110dddbbbiiiiii` (41_load_store.md R122). -/
  | ldr (dr baseR : Reg) (off6 : BitVec 6)
  /-- STR, `0111dddbbbiiiiii` (41_load_store.md R126). -/
  | str (sr baseR : Reg) (off6 : BitVec 6)
  /-- BR, `0000nzpiiiiiiiii` (42_control.md R140); `nzp` is the mask, n its top bit. -/
  | br (nzp : BitVec 3) (off9 : BitVec 9)
  /-- JMP, `1100xxxbbbxxxxxx` (42_control.md R142). -/
  | jmp (unreadHi : BitVec 3) (baseR : Reg) (unreadLo : BitVec 6)
  /-- JSR, `01001iiiiiiiiiii` (42_control.md R143). -/
  | jsr (off11 : BitVec 11)
  /-- JSRR, `01000xxbbbxxxxxx` (42_control.md R144). -/
  | jsrr (unreadHi : BitVec 2) (baseR : Reg) (unreadLo : BitVec 6)
  /-- TRAP, `1111xxxxvvvvvvvv` (43_trap.md R150). Words of the six services decode to the six constructors below. -/
  | trap (unread : BitVec 4) (vect8 : BitVec 8)
  /-- GETC, TRAP x20 (43_trap.md R152). -/
  | getc (unread : BitVec 4)
  /-- OUT, TRAP x21 (43_trap.md R153). -/
  | out (unread : BitVec 4)
  /-- PUTS, TRAP x22 (43_trap.md R154). -/
  | puts (unread : BitVec 4)
  /-- IN, TRAP x23 (43_trap.md R155). -/
  | inp (unread : BitVec 4)
  /-- PUTSP, TRAP x24 (43_trap.md R156). -/
  | putsp (unread : BitVec 4)
  /-- HALT, TRAP x25 (43_trap.md R157). -/
  | halt (unread : BitVec 4)
  /-- RTI, the reserved opcode 8 (60_exceptions.md R171). -/
  | rti (unread : BitVec 12)
  /-- RES, the reserved opcode 13 (60_exceptions.md R171). -/
  | res (unread : BitVec 12)
  deriving DecidableEq, Repr

end Sys2Proof
end

