-- ==== Sys2Proof/WellFormed.lean ====
section
/-! DEFINITION. Which terms of `Instr` stand for words: all, but that a TRAP word whose vector is one of the six
services is written with the service's own constructor. -/

namespace Sys2Proof

/-- The six defined trap vectors 0x20 to 0x25 (30_encoding.md R88). -/
def isServiceVector (v : BitVec 8) : Bool :=
  decide (0x20 ≤ v.toNat ∧ v.toNat ≤ 0x25)

/-- Field widths and register indices are right by type (10_state.md R20: no index is illegal), so one check is left:
`trap` is written only with a vector that is none of the six (the table's note: a service's row is matched first). -/
def Instr.wellFormed : Instr → Bool
  | .addR _ _ _ _ => true
  | .addI _ _ _ => true
  | .andR _ _ _ _ => true
  | .andI _ _ _ => true
  | .not _ _ _ => true
  | .ld _ _ => true
  | .ldi _ _ => true
  | .lea _ _ => true
  | .st _ _ => true
  | .sti _ _ => true
  | .ldr _ _ _ => true
  | .str _ _ _ => true
  | .br _ _ => true
  | .jmp _ _ _ => true
  | .jsr _ => true
  | .jsrr _ _ _ => true
  | .trap _ vect8 => !isServiceVector vect8
  | .getc _ => true
  | .out _ => true
  | .puts _ => true
  | .inp _ => true
  | .putsp _ => true
  | .halt _ => true
  | .rti _ => true
  | .res _ => true

end Sys2Proof
end

