-- ==== Sys2Proof/Decode.lean ====
section
/-! DEFINITION. The decoder, total on every word (30_encoding.md R81), and the encoder written from the table of R85. -/

namespace Sys2Proof

/-- The register a 3-bit index field names (10_state.md R20: every index names a register). -/
def Reg.ofField (f : BitVec 3) : Reg :=
  match f.getLsbD 2, f.getLsbD 1, f.getLsbD 0 with
  | false, false, false => .r0
  | false, false, true => .r1
  | false, true, false => .r2
  | false, true, true => .r3
  | true, false, false => .r4
  | true, false, true => .r5
  | true, true, false => .r6
  | true, true, true => .r7

/-- The 3-bit index field of a register. -/
def Reg.toField : Reg → BitVec 3
  | .r0 => 0
  | .r1 => 1
  | .r2 => 2
  | .r3 => 3
  | .r4 => 4
  | .r5 => 5
  | .r6 => 6
  | .r7 => 7

/-- The register at [11:9]: DR, or SR in the stores (30_encoding.md R82). -/
def fieldDR (w : Word) : Reg := Reg.ofField (w.extractLsb' 9 3)

/-- The register at [8:6]: SR1 or BaseR (30_encoding.md R82). -/
def fieldSR1 (w : Word) : Reg := Reg.ofField (w.extractLsb' 6 3)

/-- The register at [2:0]: SR2 (30_encoding.md R82). -/
def fieldSR2 (w : Word) : Reg := Reg.ofField (w.extractLsb' 0 3)

/-- The row of a TRAP word: the vector `w[7:0]` selects one of the six services, else the TRAP row itself
(30_encoding.md R88; the table's note on matching the service rows first). -/
def decodeTrap (w : Word) : Instr :=
  let unread : BitVec 4 := w.extractLsb' 8 4
  let vect8 : BitVec 8 := w.extractLsb' 0 8
  if vect8 = 0x20 then .getc unread
  else if vect8 = 0x21 then .out unread
  else if vect8 = 0x22 then .puts unread
  else if vect8 = 0x23 then .inp unread
  else if vect8 = 0x24 then .putsp unread
  else if vect8 = 0x25 then .halt unread
  else .trap unread vect8

/-- The decoder (30_encoding.md R80, R81): the four opcode bits [15:12], as the binary column of the table of R86
writes them, then the mode bits of R87. It is a function of the word alone and refuses no word. -/
def decode (w : Word) : Instr :=
  match w.getLsbD 15, w.getLsbD 14, w.getLsbD 13, w.getLsbD 12 with
  | false, false, false, false => .br (w.extractLsb' 9 3) (w.extractLsb' 0 9)
  | false, false, false, true =>
    if w.getLsbD 5 then .addI (fieldDR w) (fieldSR1 w) (w.extractLsb' 0 5)
    else .addR (fieldDR w) (fieldSR1 w) (w.extractLsb' 3 2) (fieldSR2 w)
  | false, false, true, false => .ld (fieldDR w) (w.extractLsb' 0 9)
  | false, false, true, true => .st (fieldDR w) (w.extractLsb' 0 9)
  | false, true, false, false =>
    if w.getLsbD 11 then .jsr (w.extractLsb' 0 11)
    else .jsrr (w.extractLsb' 9 2) (fieldSR1 w) (w.extractLsb' 0 6)
  | false, true, false, true =>
    if w.getLsbD 5 then .andI (fieldDR w) (fieldSR1 w) (w.extractLsb' 0 5)
    else .andR (fieldDR w) (fieldSR1 w) (w.extractLsb' 3 2) (fieldSR2 w)
  | false, true, true, false => .ldr (fieldDR w) (fieldSR1 w) (w.extractLsb' 0 6)
  | false, true, true, true => .str (fieldDR w) (fieldSR1 w) (w.extractLsb' 0 6)
  | true, false, false, false => .rti (w.extractLsb' 0 12)
  | true, false, false, true => .not (fieldDR w) (fieldSR1 w) (w.extractLsb' 0 6)
  | true, false, true, false => .ldi (fieldDR w) (w.extractLsb' 0 9)
  | true, false, true, true => .sti (fieldDR w) (w.extractLsb' 0 9)
  | true, true, false, false => .jmp (w.extractLsb' 9 3) (fieldSR1 w) (w.extractLsb' 0 6)
  | true, true, false, true => .res (w.extractLsb' 0 12)
  | true, true, true, false => .lea (fieldDR w) (w.extractLsb' 0 9)
  | true, true, true, true => decodeTrap w

/-- The word of an instruction: its pattern in the table of 30_encoding.md R85, bit 15 first. -/
def encode : Instr → Word
  | .addR dr sr1 unread sr2 => 0b0001#4 ++ dr.toField ++ sr1.toField ++ 0#1 ++ unread ++ sr2.toField
  | .addI dr sr1 imm5 => 0b0001#4 ++ dr.toField ++ sr1.toField ++ 1#1 ++ imm5
  | .andR dr sr1 unread sr2 => 0b0101#4 ++ dr.toField ++ sr1.toField ++ 0#1 ++ unread ++ sr2.toField
  | .andI dr sr1 imm5 => 0b0101#4 ++ dr.toField ++ sr1.toField ++ 1#1 ++ imm5
  | .not dr sr1 unread => 0b1001#4 ++ dr.toField ++ sr1.toField ++ unread
  | .ld dr off9 => 0b0010#4 ++ dr.toField ++ off9
  | .ldi dr off9 => 0b1010#4 ++ dr.toField ++ off9
  | .lea dr off9 => 0b1110#4 ++ dr.toField ++ off9
  | .st sr off9 => 0b0011#4 ++ sr.toField ++ off9
  | .sti sr off9 => 0b1011#4 ++ sr.toField ++ off9
  | .ldr dr baseR off6 => 0b0110#4 ++ dr.toField ++ baseR.toField ++ off6
  | .str sr baseR off6 => 0b0111#4 ++ sr.toField ++ baseR.toField ++ off6
  | .br nzp off9 => 0b0000#4 ++ nzp ++ off9
  | .jmp unreadHi baseR unreadLo => 0b1100#4 ++ unreadHi ++ baseR.toField ++ unreadLo
  | .jsr off11 => 0b0100#4 ++ 1#1 ++ off11
  | .jsrr unreadHi baseR unreadLo => 0b0100#4 ++ 0#1 ++ unreadHi ++ baseR.toField ++ unreadLo
  | .trap unread vect8 => 0b1111#4 ++ unread ++ vect8
  | .getc unread => 0b1111#4 ++ unread ++ 0x20#8
  | .out unread => 0b1111#4 ++ unread ++ 0x21#8
  | .puts unread => 0b1111#4 ++ unread ++ 0x22#8
  | .inp unread => 0b1111#4 ++ unread ++ 0x23#8
  | .putsp unread => 0b1111#4 ++ unread ++ 0x24#8
  | .halt unread => 0b1111#4 ++ unread ++ 0x25#8
  | .rti unread => 0b1000#4 ++ unread
  | .res unread => 0b1101#4 ++ unread

/-- What the decoder reads from an instruction whose bits are `w`. Every instruction is one 16-bit word
(30_encoding.md R80, R93) and the table numbers its bits as R7 does, so a row of at most 16 bits is that word. -/
def decodeTableWord (nbits w : Nat) : Option Instr :=
  if nbits ≤ 16 then some (decode (BitVec.ofNat 16 w)) else none

end Sys2Proof
end

