-- ==== Sys2Proof/Config.lean ====
section
/-! DEFINITION. What an implementation fixes (00_scope.md R5) and what the spec leaves open (R6). -/

namespace Sys2Proof.Config

/-- KBSR, the keyboard status register's address (00_scope.md R5; 10_state.md R32). -/
def kbsrAddr : Word := 0xFE00

/-- KBDR, the keyboard data register's address (00_scope.md R5; 10_state.md R33). -/
def kbdrAddr : Word := 0xFE02

/-- The program counter after reset (00_scope.md R5; 10_state.md R39). -/
def resetPc : Word := 0x3000

/-- GPR_RESET, the values of R0 to R7 after reset (00_scope.md R6), for `State.reset` only.
DESIGN CHOICE, unsafe (log 6): the spec leaves them open; `State.resetWith` takes any. -/
def gprReset : Fin 8 → Word := fun _ => 0

/-- What a memory cell that nothing has loaded or written holds (MEM_INIT, 00_scope.md R6).
DESIGN CHOICE, unsafe (log 7): the spec leaves it open; `State.resetWith` takes any loaded memory. -/
def memUnlisted : Word := 0

/-- IN_PROMPT, the bytes the IN service emits as its prompt (00_scope.md R6; 43_trap.md R155).
A free value (log 16): no text is chosen, nothing can be proved about it. -/
opaque inPrompt : List Byte

/-- HALT_MSG, the bytes the HALT service emits as its announcement (00_scope.md R6; 43_trap.md R157).
A free value (log 16): no text is chosen, nothing can be proved about it. -/
opaque haltMsg : List Byte

/-- The bytes the environment appends to `inq` at its `k`-th consultation after the schedule of a state, in a state whose
environment is left free (00_scope.md R6, R12; D15): an arbitrary sequence, ending or endless.
A free value (log 10): no sequence is chosen, nothing can be proved about it. -/
opaque freeInput : Nat → List Byte

end Sys2Proof.Config
end

