-- ==== Sys2Proof/Machine/State.lean ====
section
/-! DEFINITION. The state as plain data: everything 10_state.md and 00_scope.md R12, R13 give the machine, the two reasons a
step can stop, and the state after reset. -/

namespace Sys2Proof.Machine

/-- The register file, eight 16-bit registers, none hard-wired, none aliased (10_state.md R20). -/
structure RegFile where
  r0 : Word
  r1 : Word
  r2 : Word
  r3 : Word
  r4 : Word
  r5 : Word
  r6 : Word
  r7 : Word
  deriving DecidableEq, Repr

/-- Memory `M` (10_state.md R35): the cells that differ from `Config.memUnlisted`, as (address, word) pairs in rising
order of address. The addressable unit is the 16-bit word and no byte of a cell can be addressed (20_memory.md R50, R51),
so an entry holds a word (log 8). -/
abbrev Memory := List (Nat × Word)

/-- The canonical form from address `lo` on: addresses strictly rising, inside the address space, no entry equal to
what an unlisted address holds. -/
def Memory.wfFrom (lo : Nat) : Memory → Bool
  | [] => true
  | (a, v) :: rest =>
    decide (lo ≤ a) && decide (a < 65536) && decide (v ≠ Config.memUnlisted) && Memory.wfFrom (a + 1) rest

/-- The canonical form of a memory. -/
def Memory.wf (m : Memory) : Bool := Memory.wfFrom 0 m

/-- The condition flag, "always exactly one of" NEGATIVE, ZERO, POSITIVE (10_state.md R26, which allows an enumeration). -/
inductive Cond where
  | n | z | p
  deriving DecidableEq, Repr

/-- The run state `status` (10_state.md R29). -/
inductive RunState where
  | running | halted | faulted
  deriving DecidableEq, Repr

/-- The two fault causes (60_exceptions.md R172). -/
inductive FaultCause where
  | reservedOpcode | badTrapVector
  deriving DecidableEq, Repr

/-- The fault record: the cause, the address the faulting instruction was fetched from, and its word (10_state.md R31). -/
structure FaultRecord where
  cause : FaultCause
  addr : Word
  ir : Word
  deriving DecidableEq, Repr

/-- A trap service in progress over the end of a model step: a GETC or IN that waits for an input byte (43_trap.md R159;
60_exceptions.md R184), or a PUTS or PUTSP whose string has not ended, with the address it reads next (43_trap.md R160;
logs 11, 12). -/
inductive Hold where
  | getc
  | inp
  | puts (next : Word)
  | putsp (next : Word)
  deriving DecidableEq, Repr

/-- What the environment appends to `inq` after its schedule `arrivals` has run out, at each consultation of the keyboard
interface (00_scope.md R6, R12; D15; log 10). -/
inductive Later where
  /-- Nothing ever again. -/
  | nothing
  /-- The same bytes every time: input that never ends. -/
  | again (bytes : List Byte)
  /-- The free sequence `Config.freeInput` from its `next`-th entry on: arbitrary input, ending or endless. -/
  | free (next : Nat)
  deriving DecidableEq, Repr

/-- The state of the machine. `hold`, `arrivals` and `later` are the model's own fields
(logs 11, 12, 10). -/
structure State where
  /-- R0 to R7 (10_state.md R20). -/
  regs : RegFile
  /-- The program counter (10_state.md R23). -/
  pc : Word
  /-- The condition flag (10_state.md R26). -/
  cond : Cond
  /-- The run state (10_state.md R29). -/
  status : RunState
  /-- The fault record (10_state.md R31). -/
  fault : Option FaultRecord
  /-- Memory, KBSR and KBDR among its cells (10_state.md R32, R33, R35). -/
  mem : Memory
  /-- The pending input bytes, first-in first-out (00_scope.md R12). -/
  inq : List Byte
  /-- The output sequence, in order of emission (00_scope.md R13). -/
  outq : List Byte
  /-- A trap service that is still in progress (43_trap.md R159, R160). -/
  hold : Option Hold
  /-- What the environment appends to `inq` at each later consultation of the keyboard interface (00_scope.md R12;
  92_eei_decisions.md D15, D21). -/
  arrivals : List (List Byte)
  /-- What it appends at every consultation after those. -/
  later : Later
  deriving DecidableEq, Repr

/-- Why the machine takes no step. Each is safe: it proves nothing of a machine that would go on. -/
inductive Fault where
  /-- Raised by `step` in a HALTED state: "there is no step" (60_exceptions.md R176). Safe. -/
  | coreHalted
  /-- Raised by `step` in a FAULTED state: "there is no step" (60_exceptions.md R176). Safe. -/
  | coreFaulted
  deriving DecidableEq, Repr

/-- Why an instruction has no meaning. -/
inductive Refusal where
  /-- Raised by `exec` for an instruction that has no meaning yet; no arm of `exec` does. Safe. -/
  | notModelled (mnemonic : String)
  deriving DecidableEq, Repr

/-- The register file that holds `f i` in register `Ri`. -/
def RegFile.ofFn (f : Fin 8 → Word) : RegFile :=
  { r0 := f 0, r1 := f 1, r2 := f 2, r3 := f 3, r4 := f 4, r5 := f 5, r6 := f 6, r7 := f 7 }

/-- The state after reset for any value of the spec's open parameters: GPR_RESET, MEM_INIT (the memory the loader left),
the bytes already pending, and the input that arrives later (10_state.md R39; 70_reset_and_hazards.md R200). -/
def State.resetWith (gpr : RegFile) (mem : Memory) (inq : List Byte) (arrivals : List (List Byte)) (later : Later) :
    State :=
  { regs := gpr, pc := Config.resetPc, cond := .z, status := .running, fault := none, mem := mem, inq := inq, outq := [],
    hold := none, arrivals := arrivals, later := later }

/-- The machine right after reset, with the values logs 6, 7, 9 and 10 name for the open parameters. -/
def State.reset : State :=
  State.resetWith (RegFile.ofFn Config.gprReset) [] [] [] .nothing

end Sys2Proof.Machine
end

