-- ==== Sys2Proof/Machine/Flags.lean ====
section
/-! DEFINITION. The condition flag: `setcc`, its bit encoding, and the BR test (10_state.md R26, R27; 42_control.md R140). -/

namespace Sys2Proof.Machine

/-- The flag of a Word: N if the sign bit is set, Z if the value is zero, P otherwise (10_state.md R27). -/
def condOf (v : Word) : Cond :=
  if v.getLsbD 15 then .n else if v = 0 then .z else .p

/-- The one-hot encoding of the flag, N = 0b100, Z = 0b010, P = 0b001 (10_state.md R26).
PRESUMED (log 2): the spec takes the assignment from general knowledge. -/
def condBits : Cond → BitVec 3
  | .n => 0b100
  | .z => 0b010
  | .p => 0b001

/-- `setcc(v)`: reads only `v`, writes only `cond` (10_state.md R27). -/
def State.setCC (s : State) (v : Word) : State := { s with cond := condOf v }

/-- The BR test: the bitwise AND of mask and flag is not zero (42_control.md R140). -/
def brTaken (nzp : BitVec 3) (c : Cond) : Bool := (nzp &&& condBits c) != 0

end Sys2Proof.Machine
end

