-- ==== Sys2Proof/Machine/Ops.lean ====
section
/-! DEFINITION. The named operations over registers, memory, the keyboard and the output, the fault entry, and the fetch. -/

namespace Sys2Proof.Machine

/-- `sext_16(f)`: the Word whose signed reading is that of the n-bit field (00_scope.md R9). -/
def sext16 {n : Nat} (f : BitVec n) : Word := f.signExtend 16

/-- `zext_16(b)`: bits 7:0 are the byte, bits 15:8 are 0 (00_scope.md R10). -/
def zext16 (b : Byte) : Word := b.setWidth 16

/-- `low8(v)`: bits 7:0 (00_scope.md R10). -/
def low8 (v : Word) : Byte := v.extractLsb' 0 8

/-- `high8(v)`: bits 15:8 (00_scope.md R10). -/
def high8 (v : Word) : Byte := v.extractLsb' 8 8

/-- The content of a register. -/
def RegFile.get (f : RegFile) : Reg → Word
  | .r0 => f.r0
  | .r1 => f.r1
  | .r2 => f.r2
  | .r3 => f.r3
  | .r4 => f.r4
  | .r5 => f.r5
  | .r6 => f.r6
  | .r7 => f.r7

/-- A register file with one register replaced, all 16 bits of it (10_state.md R20). -/
def RegFile.set (f : RegFile) (r : Reg) (v : Word) : RegFile :=
  match r with
  | .r0 => { f with r0 := v }
  | .r1 => { f with r1 := v }
  | .r2 => { f with r2 := v }
  | .r3 => { f with r3 := v }
  | .r4 => { f with r4 := v }
  | .r5 => { f with r5 := v }
  | .r6 => { f with r6 := v }
  | .r7 => { f with r7 := v }

/-- `x[i]` (10_state.md R20). -/
def State.reg (s : State) (r : Reg) : Word := s.regs.get r

/-- `x[i] <- v` (10_state.md R20). -/
def State.setReg (s : State) (r : Reg) (v : Word) : State := { s with regs := s.regs.set r v }

/-- `pc <- t` (10_state.md R23). -/
def State.setPc (s : State) (t : Word) : State := { s with pc := t }

/-- The write that defines a result register: `x[DR] <- v; setcc(v)` (10_state.md R28; 40_operate.md R116). -/
def State.result (s : State) (dr : Reg) (v : Word) : State := (s.setReg dr v).setCC v

/-- The cell at an address of a canonical memory. -/
def Memory.read : Memory → Nat → Word
  | [], _ => Config.memUnlisted
  | (k, w) :: rest, a => if k = a then w else Memory.read rest a

/-- An entry in front of a memory, or none if it would say what an unlisted address holds. -/
def Memory.consCell (a : Nat) (v : Word) (m : Memory) : Memory :=
  if v = Config.memUnlisted then m else (a, v) :: m

/-- A memory with one cell replaced; it keeps the canonical form. -/
def Memory.write : Memory → Nat → Word → Memory
  | [], a, v => Memory.consCell a v []
  | (k, w) :: rest, a, v =>
    if a < k then Memory.consCell a v ((k, w) :: rest)
    else if a = k then Memory.consCell a v rest
    else (k, w) :: Memory.write rest a v

/-- `M[a]`, the storage cell with no side effect (10_state.md R35). -/
def State.cell (s : State) (a : Word) : Word := s.mem.read a.toNat

/-- `M[a] <- v` on the storage cell. -/
def State.setCell (s : State) (a v : Word) : State := { s with mem := s.mem.write a.toNat v }

/-- The environment appends to `inq` what arrives before this consultation of the keyboard interface, from its schedule and
then from what comes later (00_scope.md R12: "at any time between or during steps"; log 10). -/
def State.arrive (s : State) : State :=
  match s.arrivals with
  | bs :: rest => { s with inq := s.inq ++ bs, arrivals := rest }
  | [] =>
    match s.later with
    | .nothing => s
    | .again bs => { s with inq := s.inq ++ bs }
    | .free k => { s with inq := s.inq ++ Config.freeInput k, later := .free (k + 1) }

/-- `KbdPeek()`: true exactly when `inq` is not empty; it changes nothing (00_scope.md R12). -/
def State.kbdPeek (s : State) : Bool := !s.inq.isEmpty

/-- The wait of a blocked read: the environment acts, at most `n` times, until a byte is pending (43_trap.md R159). -/
def State.awaitByte : Nat → State → State
  | 0, s => s
  | n + 1, s => if s.kbdPeek then s else State.awaitByte n s.arrive

/-- `KbdRead()`: removes and returns the head of `inq`; while `inq` is empty it does not return (00_scope.md R12).
A model step waits through the rest of the schedule and once more; with no byte by then it answers none, and the
instruction is held to wait on in the next step (43_trap.md R159; log 11). -/
def State.kbdRead (s : State) : Option Byte × State :=
  let t := State.awaitByte (s.arrivals.length + 1) s
  match t.inq with
  | b :: rest => (some b, { t with inq := rest })
  | [] => (none, t)

/-- The KBSR poll, with the one `KbdPeek()` and at most one `KbdRead()` of 20_memory.md R53, which cannot block here:
a pending byte is taken and latched into KBDR with KBSR = 0x8000, else KBSR = 0 and KBDR stays. -/
def State.kbsrPoll (s : State) : State :=
  let p := s.arrive
  if p.kbdPeek then
    match p.kbdRead with
    | (some b, t) => (t.setCell Config.kbsrAddr 0x8000).setCell Config.kbdrAddr (zext16 b)
    | (none, t) => t
  else p.setCell Config.kbsrAddr 0

/-- `MemRead(a, 1)`, the one read path: the poll first if the address is KBSR, then the cell (20_memory.md R52). -/
def State.memRead (s : State) (a : Word) : Word × State :=
  let t := if a = Config.kbsrAddr then s.kbsrPoll else s
  (t.cell a, t)

/-- `MemWrite(a, 1, v)`: a plain store at every address (20_memory.md R55). -/
def State.memWrite (s : State) (a v : Word) : State := s.setCell a v

/-- `OutByte(b)` for each byte in order (00_scope.md R13). -/
def State.outBytes (s : State) (bs : List Byte) : State := { s with outq := s.outq ++ bs }

/-- `OutFlush()`: a strobe that changes no state (00_scope.md R13; log 17). -/
def State.outFlush (s : State) : State := s

/-- TAKING A FAULT, `raise Fault(cause, (A, ir))`: the record is written and the core stops (60_exceptions.md R173).
While an instruction executes `pc` holds A + 1 (10_state.md R23), so A is `pc - 1`. Nothing returns from a fault (R177). -/
def State.raiseFault (s : State) (cause : FaultCause) (ir : Word) : State :=
  { s with fault := some { cause := cause, addr := s.pc - 1, ir := ir }, status := .faulted }

/-- The numeric cause codes of the table of 60_exceptions.md R172. -/
def FaultCause.code : FaultCause → Nat
  | .reservedOpcode => 1
  | .badTrapVector => 2

/-- The fetch unit: the word at `pc` through the read path, then `pc <- pc + 1`, wrapping (60_exceptions.md R170). -/
def State.fetch (s : State) : Word × State :=
  let r := s.memRead s.pc
  (r.1, r.2.setPc (s.pc + 1))

end Sys2Proof.Machine
end

