-- ==== Sys2Proof/Machine/Operands.lean ====
section
/-! DEFINITION. Every operand form: the second ALU operand, the three ways of forming an address, the control targets
(30_encoding.md R87; 41_load_store.md R127; 42_control.md R140, R143). -/

namespace Sys2Proof.Machine

/-- PC-relative with a 9-bit offset: `pc + sext_16(ir[8:0])`, `pc` already incremented (41_load_store.md R127). -/
def State.pcRel9 (s : State) (off9 : BitVec 9) : Word := s.pc + sext16 off9

/-- PC-relative with an 11-bit offset: `pc + sext_16(ir[10:0])` (42_control.md R143). -/
def State.pcRel11 (s : State) (off11 : BitVec 11) : Word := s.pc + sext16 off11

/-- Base plus offset: `x[BaseR] + sext_16(ir[5:0])` (41_load_store.md R127). -/
def State.baseOff6 (s : State) (baseR : Reg) (off6 : BitVec 6) : Word := s.reg baseR + sext16 off6

/-- Immediate mode's second operand: `sext_16(ir[4:0])` (30_encoding.md R87). -/
def immOperand (imm5 : BitVec 5) : Word := sext16 imm5

end Sys2Proof.Machine
end

