-- ==== Sys2Proof/Machine/Control.lean ====
section
/-! DEFINITION. The meanings of BR, JMP, JSR and JSRR (42_control.md), and the link save they share with TRAP. -/

namespace Sys2Proof.Machine

/-- The link save `x[7] <- pc`: the incremented `pc`, A + 1 (10_state.md R22, R23). -/
def State.link (s : State) : State := s.setReg .r7 s.pc

/-- BR (42_control.md R140). -/
def execBr (nzp : BitVec 3) (off9 : BitVec 9) (s : State) : Host.Outcome State Fault Refusal :=
  .next (if brTaken nzp s.cond then s.setPc (s.pcRel9 off9) else s)

/-- JMP (42_control.md R142). -/
def execJmp (_unreadHi : BitVec 3) (baseR : Reg) (_unreadLo : BitVec 6) (s : State) : Host.Outcome State Fault Refusal :=
  .next (s.setPc (s.reg baseR))

/-- JSR (42_control.md R143). -/
def execJsr (off11 : BitVec 11) (s : State) : Host.Outcome State Fault Refusal :=
  .next (s.link.setPc (s.pcRel11 off11))

/-- JSRR: R7 is written first, then BaseR is read (42_control.md R144; D16; log 18). -/
def execJsrr (_unreadHi : BitVec 2) (baseR : Reg) (_unreadLo : BitVec 6) (s : State) : Host.Outcome State Fault Refusal :=
  .next (s.link.setPc (s.link.reg baseR))

end Sys2Proof.Machine
end

