-- ==== Sys2Proof/Machine/LoadStore.lean ====
section
/-! DEFINITION. The meanings of LD, LDI, LDR, LEA, ST, STI and STR (41_load_store.md). Every read goes through `memRead`
(20_memory.md R56), in the order of R59; addresses are formed before the destination is written (41_load_store.md R128). -/

namespace Sys2Proof.Machine

/-- The load of `x[dr]` from address `ea`, with the flag (41_load_store.md R128). -/
def State.loadFrom (s : State) (dr : Reg) (ea : Word) : State :=
  let r := s.memRead ea
  r.2.result dr r.1

/-- LD (41_load_store.md R120). -/
def execLd (dr : Reg) (off9 : BitVec 9) (s : State) : Host.Outcome State Fault Refusal :=
  .next (s.loadFrom dr (s.pcRel9 off9))

/-- LDI: the pointer read, then the data read (41_load_store.md R121). -/
def execLdi (dr : Reg) (off9 : BitVec 9) (s : State) : Host.Outcome State Fault Refusal :=
  let ptr := s.memRead (s.pcRel9 off9)
  .next (ptr.2.loadFrom dr ptr.1)

/-- LDR (41_load_store.md R122). -/
def execLdr (dr baseR : Reg) (off6 : BitVec 6) (s : State) : Host.Outcome State Fault Refusal :=
  .next (s.loadFrom dr (s.baseOff6 baseR off6))

/-- LEA: the address itself, no memory access, and the flag from it (41_load_store.md R123). -/
def execLea (dr : Reg) (off9 : BitVec 9) (s : State) : Host.Outcome State Fault Refusal :=
  .next (s.result dr (s.pcRel9 off9))

/-- ST (41_load_store.md R124). -/
def execSt (sr : Reg) (off9 : BitVec 9) (s : State) : Host.Outcome State Fault Refusal :=
  .next (s.memWrite (s.pcRel9 off9) (s.reg sr))

/-- STI: the pointer read, then the store through it (41_load_store.md R125). -/
def execSti (sr : Reg) (off9 : BitVec 9) (s : State) : Host.Outcome State Fault Refusal :=
  let ptr := s.memRead (s.pcRel9 off9)
  .next (ptr.2.memWrite ptr.1 (ptr.2.reg sr))

/-- STR (41_load_store.md R126). -/
def execStr (sr baseR : Reg) (off6 : BitVec 6) (s : State) : Host.Outcome State Fault Refusal :=
  .next (s.memWrite (s.baseOff6 baseR off6) (s.reg sr))

end Sys2Proof.Machine
end

