-- ==== Sys2Proof/Machine/Operate.lean ====
section
/-! DEFINITION. The meanings of ADD, AND and NOT (40_operate.md). Sources are read before the destination is written (R116). -/

namespace Sys2Proof.Machine

/-- ADD, register mode (40_operate.md R110). -/
def execAddR (dr sr1 : Reg) (_unread : BitVec 2) (sr2 : Reg) (s : State) : Host.Outcome State Fault Refusal :=
  .next (s.result dr (s.reg sr1 + s.reg sr2))

/-- ADD, immediate mode (40_operate.md R111). -/
def execAddI (dr sr1 : Reg) (imm5 : BitVec 5) (s : State) : Host.Outcome State Fault Refusal :=
  .next (s.result dr (s.reg sr1 + immOperand imm5))

/-- AND, register mode (40_operate.md R112). -/
def execAndR (dr sr1 : Reg) (_unread : BitVec 2) (sr2 : Reg) (s : State) : Host.Outcome State Fault Refusal :=
  .next (s.result dr (s.reg sr1 &&& s.reg sr2))

/-- AND, immediate mode (40_operate.md R113). -/
def execAndI (dr sr1 : Reg) (imm5 : BitVec 5) (s : State) : Host.Outcome State Fault Refusal :=
  .next (s.result dr (s.reg sr1 &&& immOperand imm5))

/-- NOT (40_operate.md R114). -/
def execNot (dr sr1 : Reg) (_unread : BitVec 6) (s : State) : Host.Outcome State Fault Refusal :=
  .next (s.result dr (~~~(s.reg sr1)))

end Sys2Proof.Machine
end

