-- ==== Sys2Proof/Machine/Reserved.lean ====
section
/-! DEFINITION. The meanings of the two reserved opcodes: the RESERVED_OPCODE fault (60_exceptions.md R171). -/

namespace Sys2Proof.Machine

/-- RTI, opcode 8: the fault; it returns from nothing (60_exceptions.md R171, R177). -/
def execRti (unread : BitVec 12) (s : State) : Host.Outcome State Fault Refusal :=
  .next (s.raiseFault .reservedOpcode (encode (.rti unread)))

/-- RES, opcode 13: the fault (60_exceptions.md R171). -/
def execRes (unread : BitVec 12) (s : State) : Host.Outcome State Fault Refusal :=
  .next (s.raiseFault .reservedOpcode (encode (.res unread)))

end Sys2Proof.Machine
end

