-- ==== Sys2Proof/Machine/Services.lean ====
section
/-! DEFINITION. The six built-in services behind TRAP (43_trap.md R152 to R157) and the end of a wait for input (R159). Each
runs after the router has saved `pc` in R7. -/

namespace Sys2Proof.Machine

/-- GETC's effect once its byte is there (43_trap.md R152). -/
def State.finishGetc (s : State) (b : Byte) : State := s.result .r0 (zext16 b)

/-- IN's effect once its byte is there: the echo, then R0 and the flag (43_trap.md R155). -/
def State.finishIn (s : State) (b : Byte) : State := ((s.outBytes [b]).outFlush).result .r0 (zext16 b)

/-- GETC, or its going on (43_trap.md R152); with no byte yet the instruction is held (R159). -/
def State.getcService (s : State) : State :=
  match s.kbdRead with
  | (some b, t) => t.finishGetc b
  | (none, t) => { t with hold := some .getc }

/-- OUT (43_trap.md R153). -/
def State.outService (s : State) : State := (s.outBytes [low8 (s.reg .r0)]).outFlush

/-- The bytes PUTS emits for one nonzero word: its low byte (43_trap.md R154). -/
def putsBytes (w : Word) : List Byte := [low8 w]

/-- The bytes PUTSP emits for one nonzero word: the low byte always, the high byte if nonzero (43_trap.md R156). -/
def putspBytes (w : Word) : List Byte := if high8 w = 0 then [low8 w] else [low8 w, high8 w]

/-- The string loop of PUTS and PUTSP from address `a`: read a word; stop at the zero Word; else emit its bytes and go on at
`a + 1`, wrapping (43_trap.md R154, R156). By iteration with fuel, as R160 asks: it answers the state reached, with the address
to read next when the fuel has run out before the zero Word. -/
def stringLoop (bytesOf : Word → List Byte) : Nat → Word → State → State × Option Word
  | 0, a, s => (s, some a)
  | fuel + 1, a, s =>
    let r := s.memRead a
    if r.1 = 0 then (r.2, none) else stringLoop bytesOf fuel (a + 1) (r.2.outBytes (bytesOf r.1))

/-- The input bytes pending and scheduled. -/
def State.inputLeft (s : State) : Nat := s.inq.length + s.arrivals.flatten.length

/-- The reads one model step makes at most: a cycle of all 65,536 addresses, and one more for each byte scheduled. Without
further input every string ends within them, at the latest at 0xFE00, whose read is zero unless it takes a byte
(43_trap.md R160; log 12). -/
def State.stringFuel (s : State) : Nat := 65536 * (s.inputLeft + 1)

/-- The string services from address `a`: the loop, then the flush. A string that has not ended leaves the instruction in
progress, the core RUNNING and the output growing, to go on in the next step: the hang of 43_trap.md R160 is a run of such
steps without end (log 12). -/
def State.stringService (s : State) (bytesOf : Word → List Byte) (held : Word → Hold) (a : Word) : State :=
  match stringLoop bytesOf s.stringFuel a s with
  | (t, none) => t.outFlush
  | (t, some b) => { t with hold := some (held b) }

/-- PUTS, or its going on, from address `a` (43_trap.md R154). -/
def State.putsService (s : State) (a : Word) : State := s.stringService putsBytes .puts a

/-- PUTSP, or its going on, from address `a` (43_trap.md R156). -/
def State.putspService (s : State) (a : Word) : State := s.stringService putspBytes .putsp a

/-- IN after its prompt (43_trap.md R155); with no byte yet the instruction is held (R159). -/
def State.inRead (s : State) : State :=
  match s.kbdRead with
  | (some b, t) => t.finishIn b
  | (none, t) => { t with hold := some .inp }

/-- IN (43_trap.md R155): the prompt, then the byte. -/
def State.inService (s : State) : State := ((s.outBytes Config.inPrompt).outFlush).inRead

/-- HALT (43_trap.md R157). -/
def State.haltService (s : State) : State :=
  { (s.outBytes Config.haltMsg).outFlush with status := .halted }

/-- The going on of a service in progress: a read completes as soon as a byte is there, a string when its zero Word is read
(43_trap.md R159, R160). -/
def State.resume (s : State) : Hold → State
  | .getc => ({ s with hold := none } : State).getcService
  | .inp => ({ s with hold := none } : State).inRead
  | .puts a => ({ s with hold := none } : State).putsService a
  | .putsp a => ({ s with hold := none } : State).putspService a

end Sys2Proof.Machine
end

