-- ==== Sys2Proof/Machine/Trap.lean ====
section
/-! DEFINITION. The meanings of TRAP and of the six service rows (43_trap.md): the link save, then the router or the service. -/

namespace Sys2Proof.Machine

/-- The router `route(v)` (43_trap.md R151): six constants, and the undefined-vector fault for any other (R158).
`ir` is the instruction word, for the fault record. -/
def State.route (s : State) (v : BitVec 8) (ir : Word) : State :=
  if v = 0x20 then s.getcService
  else if v = 0x21 then s.outService
  else if v = 0x22 then s.putsService (s.reg .r0)
  else if v = 0x23 then s.inService
  else if v = 0x24 then s.putspService (s.reg .r0)
  else if v = 0x25 then s.haltService
  else s.raiseFault .badTrapVector ir

/-- TRAP (43_trap.md R150): `x[7] <- pc` for every vector, defined or not, then the router. -/
def execTrap (unread : BitVec 4) (vect8 : BitVec 8) (s : State) : Host.Outcome State Fault Refusal :=
  .next (s.link.route vect8 (encode (.trap unread vect8)))

/-- GETC (43_trap.md R150, R152). -/
def execGetc (_unread : BitVec 4) (s : State) : Host.Outcome State Fault Refusal :=
  .next s.link.getcService

/-- OUT (43_trap.md R150, R153). -/
def execOut (_unread : BitVec 4) (s : State) : Host.Outcome State Fault Refusal :=
  .next s.link.outService

/-- PUTS (43_trap.md R150, R154). -/
def execPuts (_unread : BitVec 4) (s : State) : Host.Outcome State Fault Refusal :=
  .next (s.link.putsService (s.link.reg .r0))

/-- IN (43_trap.md R150, R155). -/
def execIn (_unread : BitVec 4) (s : State) : Host.Outcome State Fault Refusal :=
  .next s.link.inService

/-- PUTSP (43_trap.md R150, R156). -/
def execPutsp (_unread : BitVec 4) (s : State) : Host.Outcome State Fault Refusal :=
  .next (s.link.putspService (s.link.reg .r0))

/-- HALT (43_trap.md R150, R157). -/
def execHalt (_unread : BitVec 4) (s : State) : Host.Outcome State Fault Refusal :=
  .next s.link.haltService

end Sys2Proof.Machine
end

