-- ==== Sys2Proof/Machine/Dispatch.lean ====
section
/-! DEFINITION. The dispatch: one arm per constructor (60_exceptions.md R170). `exec` runs inside the step, so `pc` already
holds the instruction's address plus one. -/

namespace Sys2Proof.Machine

def exec (i : Instr) (s : State) : Host.Outcome State Fault Refusal :=
  match i with
  | .addR dr sr1 unread sr2 => Sys2Proof.Machine.execAddR dr sr1 unread sr2 s
  | .addI dr sr1 imm5 => Sys2Proof.Machine.execAddI dr sr1 imm5 s
  | .andR dr sr1 unread sr2 => Sys2Proof.Machine.execAndR dr sr1 unread sr2 s
  | .andI dr sr1 imm5 => Sys2Proof.Machine.execAndI dr sr1 imm5 s
  | .not dr sr1 unread => Sys2Proof.Machine.execNot dr sr1 unread s
  | .ld dr off9 => Sys2Proof.Machine.execLd dr off9 s
  | .ldi dr off9 => Sys2Proof.Machine.execLdi dr off9 s
  | .lea dr off9 => Sys2Proof.Machine.execLea dr off9 s
  | .st sr off9 => Sys2Proof.Machine.execSt sr off9 s
  | .sti sr off9 => Sys2Proof.Machine.execSti sr off9 s
  | .ldr dr baseR off6 => Sys2Proof.Machine.execLdr dr baseR off6 s
  | .str sr baseR off6 => Sys2Proof.Machine.execStr sr baseR off6 s
  | .br nzp off9 => Sys2Proof.Machine.execBr nzp off9 s
  | .jmp unreadHi baseR unreadLo => Sys2Proof.Machine.execJmp unreadHi baseR unreadLo s
  | .jsr off11 => Sys2Proof.Machine.execJsr off11 s
  | .jsrr unreadHi baseR unreadLo => Sys2Proof.Machine.execJsrr unreadHi baseR unreadLo s
  | .trap unread vect8 => Sys2Proof.Machine.execTrap unread vect8 s
  | .getc unread => Sys2Proof.Machine.execGetc unread s
  | .out unread => Sys2Proof.Machine.execOut unread s
  | .puts unread => Sys2Proof.Machine.execPuts unread s
  | .inp unread => Sys2Proof.Machine.execIn unread s
  | .putsp unread => Sys2Proof.Machine.execPutsp unread s
  | .halt unread => Sys2Proof.Machine.execHalt unread s
  | .rti unread => Sys2Proof.Machine.execRti unread s
  | .res unread => Sys2Proof.Machine.execRes unread s

end Sys2Proof.Machine
end

