-- ==== Sys2Proof/Machine/Step.lean ====
section
/-! DEFINITION. One step of the core (60_exceptions.md R170), and the placing of an instruction where the next step
fetches it. -/

namespace Sys2Proof.Machine

/-- One step: none in a terminal state (60_exceptions.md R176); a service in progress goes on (43_trap.md R159,
R160); else fetch, increment, decode, dispatch (60_exceptions.md R170). -/
def step (s : State) : Host.Outcome State Fault Refusal :=
  match s.status with
  | .halted => .fault .coreHalted
  | .faulted => .fault .coreFaulted
  | .running =>
    match s.hold with
    | some h => .next (s.resume h)
    | none => exec (decode s.fetch.1) s.fetch.2

/-- The address a placed instruction is fetched from: `pc`, but for 0xFE00, whose fetch is the poll and never the cell
(20_memory.md R56), where the reset address stands in (log 21). -/
def State.fetchSlot (s : State) : Word := if s.pc = Config.kbsrAddr then Config.resetPc else s.pc

/-- `s` with the word `w` stored where the next step fetches: at `pc`, in a running core with no service in progress
(logs 9, 21). Every instruction is one word, so `nbits` does not matter (30_encoding.md R80). -/
def State.withFetchWord (s : State) (_nbits w : Nat) : State :=
  { s.setCell s.fetchSlot (BitVec.ofNat 16 w) with pc := s.fetchSlot, status := .running, hold := none }

end Sys2Proof.Machine
end

