-- ==== Sys2Proof/Machine/Loader.lean ====
section
/-! DEFINITION. The loader's side of memory, outside the core and finished before the first step (70_reset_and_hazards.md
R204, R205): a program image becomes cells of a memory, from which `State.resetWith` starts. -/

namespace Sys2Proof.Machine

/-- The words of a big-endian byte stream (70_reset_and_hazards.md R205). An odd last byte is no Word and is dropped
(DESIGN CHOICE, log 23). -/
def imageWords : List Byte → List Word
  | hi :: lo :: rest => (hi ++ lo) :: imageWords rest
  | _ => []

/-- Words placed at `a`, `a + 1`, …, stopping at the last in-range address (70_reset_and_hazards.md R205). -/
def loadWords (a : Nat) : List Word → Memory → Memory
  | [], m => m
  | w :: ws, m => if a < 65536 then loadWords (a + 1) ws (m.write a w) else m

/-- One image over a memory: word 0 is the origin, the others are placed from it on (70_reset_and_hazards.md R205). -/
def loadImage (image : List Byte) (m : Memory) : Memory :=
  match imageWords image with
  | [] => m
  | origin :: ws => loadWords origin.toNat ws m

end Sys2Proof.Machine
end

