-- ==== Sys2Proof/Safety.lean ====
section
/-! DEFINITION. The terms claims use: how a run ends, fields of a word read as numbers, what an instruction leaves unchanged,
what one read of memory does, what a string loop does, and the invariant of the machine. -/

namespace Sys2Proof.Safety

open Sys2Proof.Machine

/-! ### Numbers in words -/

/-- `v[hi:lo]` as an unsigned value (00_scope.md R7). -/
def bits (w : Word) (hi lo : Nat) : Nat := w.toNat / 2 ^ lo % 2 ^ (hi - lo + 1)

/-- The number of a register, 0 to 7 (10_state.md R20). -/
def regNum : Reg → Nat
  | .r0 => 0
  | .r1 => 1
  | .r2 => 2
  | .r3 => 3
  | .r4 => 4
  | .r5 => 5
  | .r6 => 6
  | .r7 => 7

/-- Each listed field `(hi, lo, value)` of the word has that value. -/
def HasFields (w : Word) (fields : List (Nat × Nat × Nat)) : Prop := ∀ f ∈ fields, bits w f.1 f.2.1 = f.2.2

/-! ### How a run ends (60_exceptions.md R176) -/

/-- The good end: HALTED with no fault record. -/
def GoodEnd (s : State) : Prop := s.status = .halted ∧ s.fault = none

/-- The bad end: FAULTED. -/
def BadEnd (s : State) : Prop := s.status = .faulted

/-! ### Frames: `s` before, `t` after -/

/-- Every register but the listed ones holds what it held. -/
def RegsKept (except : List Reg) (s t : State) : Prop := ∀ r, r ∉ except → t.reg r = s.reg r

/-- Every cell of memory holds what it held. -/
def MemKept (s t : State) : Prop := ∀ a, t.cell a = s.cell a

/-- Every cell of memory but the listed ones holds what it held. -/
def MemKeptBut (except : List Word) (s t : State) : Prop := ∀ a, a ∉ except → t.cell a = s.cell a

/-- The run state, the fault record and the hold are what they were. -/
def RunKept (s t : State) : Prop := t.status = s.status ∧ t.fault = s.fault ∧ t.hold = s.hold

/-- The input bytes, pending and to come, are what they were. -/
def InputKept (s t : State) : Prop := t.inq = s.inq ∧ t.arrivals = s.arrivals ∧ t.later = s.later

/-- `c` is the flag of `v`, by the three ranges of 10_state.md R27. -/
def FlagOf (v : Word) (c : Cond) : Prop :=
  (0x8000 ≤ v.toNat → c = .n) ∧ (v.toNat = 0 → c = .z) ∧ (1 ≤ v.toNat ∧ v.toNat ≤ 0x7FFF → c = .p)

/-- Only the result register and the flag may differ (10_state.md R21, R28). -/
def OnlyResult (dr : Reg) (s t : State) : Prop :=
  RegsKept [dr] s t ∧ MemKept s t ∧ t.pc = s.pc ∧ RunKept s t ∧ InputKept s t ∧ t.outq = s.outq

/-- Only `pc` may differ, and the registers listed. -/
def OnlyPc (except : List Reg) (s t : State) : Prop :=
  RegsKept except s t ∧ MemKept s t ∧ t.cond = s.cond ∧ RunKept s t ∧ InputKept s t ∧ t.outq = s.outq

/-- The cell at `ea` holds `v`, and nothing else differs (41_load_store.md R128: a store changes no register and no flag). -/
def Stored (ea v : Word) (s t : State) : Prop :=
  (∀ a, t.cell a = if a = ea then v else s.cell a) ∧
  RegsKept [] s t ∧ t.pc = s.pc ∧ t.cond = s.cond ∧ RunKept s t ∧ InputKept s t ∧ t.outq = s.outq

/-- `dr` holds the loaded word, the flag is that of the word, and nothing else differs from the state after the reads. -/
def Loaded (dr : Reg) (v : Word) (s t : State) : Prop :=
  t.reg dr = v ∧ FlagOf v t.cond ∧ OnlyResult dr s t

/-! ### Input and the one read path -/

/-- What the environment appends to `inq` at its `k`-th consultation after the schedule (00_scope.md R6, R12). -/
def laterBytes : Later → Nat → List Byte
  | .nothing, _ => []
  | .again bs, _ => bs
  | .free n, k => Config.freeInput (n + k)

/-- What it appends at its `k`-th consultation from now on, counted from 0. -/
def arrivingAt (s : State) (k : Nat) : List Byte :=
  match s.arrivals[k]? with
  | some bs => bs
  | none => laterBytes s.later (k - s.arrivals.length)

/-- The bytes pending once the environment has acted `n` times more, if the core takes none (00_scope.md R12). -/
def upcoming (s : State) (n : Nat) : List Byte := s.inq ++ (List.range n).flatMap (arrivingAt s)

/-- How often the environment acts at most while one step waits for a byte: through its schedule, and once more (log 11). -/
def waits (s : State) : Nat := s.arrivals.length + 1

/-- From `s` to `t` the environment acted `k` times, in its order, and the core took exactly the bytes `taken`, from the front
(00_scope.md R12). -/
def InputMoved (k : Nat) (taken : List Byte) (s t : State) : Prop := ∀ n, upcoming s (k + n) = taken ++ upcoming t n

/-- Only the input differs. -/
def OnlyInput (s t : State) : Prop := t = { s with inq := t.inq, arrivals := t.arrivals, later := t.later }

/-- What one read of address `a` in state `s` answers (`v`) and leaves (`m`), stated from 20_memory.md R52, R53, R54. -/
structure Reads (a : Word) (s : State) (v : Word) (m : State) : Prop where
  /-- Any other address: the cell, and no side effect. -/
  plain : a ≠ 0xFE00 → v = s.cell a ∧ MemKept s m ∧ InputKept s m
  /-- KBSR with nothing pending: 0, and KBDR stays. -/
  empty : a = 0xFE00 → upcoming s 1 = [] →
    v = 0 ∧ m.cell 0xFE00 = 0 ∧ MemKeptBut [0xFE00] s m ∧ InputMoved 1 [] s m
  /-- KBSR with a byte pending: 0x8000, the byte latched into KBDR and consumed. -/
  ready : a = 0xFE00 → ∀ b rest, upcoming s 1 = b :: rest →
    v = 0x8000 ∧ m.cell 0xFE00 = 0x8000 ∧ (m.cell 0xFE02).toNat = b.toNat ∧ MemKeptBut [0xFE00, 0xFE02] s m ∧
      InputMoved 1 [b] s m
  /-- Nothing else. -/
  frame : RegsKept [] s m ∧ m.pc = s.pc ∧ m.cond = s.cond ∧ RunKept s m ∧ m.outq = s.outq

/-- `m` is reached from `s` by reads of memory alone. -/
inductive AfterReads (s : State) : State → Prop
  | none : AfterReads s s
  | read {m : State} (a : Word) : AfterReads s m → AfterReads s (m.memRead a).2

/-- The loop of 43_trap.md R154 and R156, without fuel: from address `a` in state `s` it ends, in state `t`. -/
inductive Prints (bytesOf : Word → List Byte) : Word → State → State → Prop
  /-- The read gives the zero Word: exit. -/
  | stop {a : Word} {s : State} : (s.memRead a).1 = 0 → Prints bytesOf a s (s.memRead a).2
  /-- It gives another Word: emit its bytes and go on at `a + 1`. -/
  | more {a : Word} {s t : State} : (s.memRead a).1 ≠ 0 →
      Prints bytesOf (a + 1) ((s.memRead a).2.outBytes (bytesOf (s.memRead a).1)) t → Prints bytesOf a s t

/-- The same loop on its way: after `n` Words, none of them zero, it is at address `b` in state `t`. -/
inductive PrintsOn (bytesOf : Word → List Byte) : Nat → Word → State → Word → State → Prop
  | here {a : Word} {s : State} : PrintsOn bytesOf 0 a s a s
  | more {n : Nat} {a b : Word} {s t : State} : (s.memRead a).1 ≠ 0 →
      PrintsOn bytesOf n (a + 1) ((s.memRead a).2.outBytes (bytesOf (s.memRead a).1)) b t → PrintsOn bytesOf (n + 1) a s b t

/-- What one step of a string service from address `a` does: it ends as its loop ends, or it has gone through all 65,536
addresses at least once, met no zero Word, and is left in progress where it is (43_trap.md R160; log 12). -/
def StringStep (bytesOf : Word → List Byte) (held : Word → Hold) (a : Word) (s t : State) : Prop :=
  Prints bytesOf a s t ∨
    ∃ n b m, 65536 ≤ n ∧ PrintsOn bytesOf n a s b m ∧ t = { m with hold := some (held b) }

/-- The Word to bytes of PUTS and of PUTSP, with the constructor of `Hold` that says it is in progress. -/
def isStringService (bytesOf : Word → List Byte) (held : Word → Hold) : Prop :=
  (bytesOf = (fun w => [low8 w]) ∧ held = .puts) ∨
  (bytesOf = (fun w => if high8 w = 0 then [low8 w] else [low8 w, high8 w]) ∧ held = .putsp)

/-- The state `n` steps on, if there is one. -/
def stepN : Nat → State → Option State
  | 0, s => some s
  | n + 1, s =>
    match step s with
    | .next t => stepN n t
    | _ => none

/-! ### Whole-machine rules -/

/-- The registers an instruction may write, for every instruction (10_state.md R21). -/
def writesRegs : Instr → List Reg
  | .addR dr _ _ _ => [dr]
  | .addI dr _ _ => [dr]
  | .andR dr _ _ _ => [dr]
  | .andI dr _ _ => [dr]
  | .not dr _ _ => [dr]
  | .ld dr _ => [dr]
  | .ldi dr _ => [dr]
  | .lea dr _ => [dr]
  | .st _ _ => []
  | .sti _ _ => []
  | .ldr dr _ _ => [dr]
  | .str _ _ _ => []
  | .br _ _ => []
  | .jmp _ _ _ => []
  | .jsr _ => [.r7]
  | .jsrr _ _ _ => [.r7]
  | .trap _ vect8 => if vect8 = 0x20 ∨ vect8 = 0x23 then [.r7, .r0] else [.r7]
  | .getc _ => [.r7, .r0]
  | .out _ => [.r7]
  | .puts _ => [.r7]
  | .inp _ => [.r7, .r0]
  | .putsp _ => [.r7]
  | .halt _ => [.r7]
  | .rti _ => []
  | .res _ => []

/-- The registers an instruction reads, for every instruction (10_state.md R21). -/
def readsRegs : Instr → List Reg
  | .addR _ sr1 _ sr2 => [sr1, sr2]
  | .addI _ sr1 _ => [sr1]
  | .andR _ sr1 _ sr2 => [sr1, sr2]
  | .andI _ sr1 _ => [sr1]
  | .not _ sr1 _ => [sr1]
  | .ld _ _ => []
  | .ldi _ _ => []
  | .lea _ _ => []
  | .st sr _ => [sr]
  | .sti sr _ => [sr]
  | .ldr _ baseR _ => [baseR]
  | .str sr baseR _ => [sr, baseR]
  | .br _ _ => []
  | .jmp _ baseR _ => [baseR]
  | .jsr _ => []
  | .jsrr _ baseR _ => [baseR]
  | .trap _ vect8 => if vect8 = 0x21 ∨ vect8 = 0x22 ∨ vect8 = 0x24 then [.r0] else []
  | .getc _ => []
  | .out _ => [.r0]
  | .puts _ => [.r0]
  | .inp _ => []
  | .putsp _ => [.r0]
  | .halt _ => []
  | .rti _ => []
  | .res _ => []

/-- The instructions that may write the flag (10_state.md R28). -/
def writesFlag : Instr → Bool
  | .addR _ _ _ _ => true
  | .addI _ _ _ => true
  | .andR _ _ _ _ => true
  | .andI _ _ _ => true
  | .not _ _ _ => true
  | .ld _ _ => true
  | .ldi _ _ => true
  | .lea _ _ => true
  | .st _ _ => false
  | .sti _ _ => false
  | .ldr _ _ _ => true
  | .str _ _ _ => false
  | .br _ _ => false
  | .jmp _ _ _ => false
  | .jsr _ => false
  | .jsrr _ _ _ => false
  | .trap _ vect8 => decide (vect8 = 0x20 ∨ vect8 = 0x23)
  | .getc _ => true
  | .out _ => false
  | .puts _ => false
  | .inp _ => true
  | .putsp _ => false
  | .halt _ => false
  | .rti _ => false
  | .res _ => false

/-- The three store instructions, the only writers of memory beside the poll (20_memory.md R55). -/
def isStore : Instr → Bool
  | .st _ _ => true
  | .sti _ _ => true
  | .str _ _ _ => true
  | .addR _ _ _ _ => false
  | .addI _ _ _ => false
  | .andR _ _ _ _ => false
  | .andI _ _ _ => false
  | .not _ _ _ => false
  | .ld _ _ => false
  | .ldi _ _ => false
  | .lea _ _ => false
  | .ldr _ _ _ => false
  | .br _ _ => false
  | .jmp _ _ _ => false
  | .jsr _ => false
  | .jsrr _ _ _ => false
  | .trap _ _ => false
  | .getc _ => false
  | .out _ => false
  | .puts _ => false
  | .inp _ => false
  | .putsp _ => false
  | .halt _ => false
  | .rti _ => false
  | .res _ => false

/-- The instructions that read memory beyond their fetch, STI's pointer read among them (20_memory.md R59). -/
def readsMemory : Instr → Bool
  | .ld _ _ => true
  | .ldi _ _ => true
  | .ldr _ _ _ => true
  | .sti _ _ => true
  | .puts _ => true
  | .putsp _ => true
  | .trap _ vect8 => decide (vect8 = 0x22 ∨ vect8 = 0x24)
  | .addR _ _ _ _ => false
  | .addI _ _ _ => false
  | .andR _ _ _ _ => false
  | .andI _ _ _ => false
  | .not _ _ _ => false
  | .lea _ _ => false
  | .st _ _ => false
  | .str _ _ _ => false
  | .br _ _ => false
  | .jmp _ _ _ => false
  | .jsr _ => false
  | .jsrr _ _ _ => false
  | .getc _ => false
  | .out _ => false
  | .inp _ => false
  | .halt _ => false
  | .rti _ => false
  | .res _ => false

/-- A fault record says which word faulted and where: its cause fits its word, `pc` is the address after it, and an
undefined vector has left the link in R7 (60_exceptions.md R171, R172; 43_trap.md R158). -/
def RecordFits (r : FaultRecord) (s : State) : Prop :=
  s.pc = r.addr + 1 ∧
  (r.cause = .reservedOpcode → bits r.ir 15 12 = 8 ∨ bits r.ir 15 12 = 13) ∧
  (r.cause = .badTrapVector →
    bits r.ir 15 12 = 15 ∧ ¬(0x20 ≤ bits r.ir 7 0 ∧ bits r.ir 7 0 ≤ 0x25) ∧ s.reg .r7 = r.addr + 1)

/-- The invariant of the machine: memory canonical; a fault record exactly when FAULTED, and one that fits; only a running
core has a service in progress, and it has saved its link (10_state.md R29, R31, R35; 43_trap.md R150, R159, R160;
60_exceptions.md R171 to R173). -/
structure Inv (s : State) : Prop where
  memWf : s.mem.wf = true
  faultedIff : s.status = .faulted ↔ s.fault ≠ none
  recordFits : ∀ r, s.fault = some r → RecordFits r s
  heldRuns : s.hold ≠ none → s.status = .running ∧ s.reg .r7 = s.pc

end Sys2Proof.Safety
end

