-- ==== Sys2Proof/Certificates/Slice0/Obligations.lean ====
section
/-! DEFINITION. The statements for the provers. Each docstring names the rule of the spec it formalises; where a clause rests
on a choice (the spec's own decision D<n>, or the model's log entry) the docstring says so. In every statement about `exec`
the state is the one inside the step: `pc` already holds the instruction's address plus one (10_state.md R23). -/

open Sys2Proof Sys2Proof.Machine Sys2Proof.Safety

/-! ### Encoding -/

/-- Decoding the word of a well-formed instruction gives it back, every operand and every unread bit at every value
(30_encoding.md R81, R85; the patterns rest on D1, D2, log 1). -/
def Obligations.DecodeEncodeRoundTrip : Prop :=
  ∀ i : Instr, i.wellFormed = true → decode (encode i) = i

/-- Every one of the 65,536 words decodes to a well-formed instruction whose encoding is that word: decoding is total and no
two instructions share a word (30_encoding.md R81). -/
def Obligations.EveryWordDecodesAndEncodesBack : Prop :=
  ∀ w : Word, (decode w).wellFormed = true ∧ encode (decode w) = w

/-- Words written out from the spec's own table and examples decode to the instructions they stand for (30_encoding.md R85,
R95; 40_operate.md, 41_load_store.md, 42_control.md examples; D1, D2, log 1). -/
def Obligations.DecodeReadsSpecWords : Prop :=
  decode 0x1401 = .addR .r2 .r0 0 .r1 ∧ decode 0x127F = .addI .r1 .r1 0x1F ∧ decode 0x5642 = .andR .r3 .r1 0 .r2 ∧
  decode 0x947F = .not .r2 .r1 0x3F ∧ decode 0xA403 = .ldi .r2 3 ∧ decode 0x68BB = .ldr .r4 .r2 0x3B ∧
  decode 0x725F = .str .r1 .r1 0x1F ∧ decode 0x0402 = .br 0b010 2 ∧ decode 0xC1C0 = .jmp 0 .r7 0 ∧
  decode 0x4802 = .jsr 2 ∧ decode 0x4080 = .jsrr 0 .r2 0 ∧ decode 0xF025 = .halt 0 ∧ decode 0xF000 = .trap 0 0 ∧
  decode 0x8000 = .rti 0 ∧ decode 0xDFFF = .res 0xFFF

/-- The operate rows of the table of 30_encoding.md R85: a word decodes to the instruction exactly when its fields are those
of the row (opcode values by D1, imm5's place by D2, log 1). -/
def Obligations.DecodeFieldsOfOperateRows : Prop :=
  ∀ (w : Word) (dr sr1 sr2 : Reg) (u2 : BitVec 2) (imm5 : BitVec 5) (u6 : BitVec 6),
    (decode w = .addR dr sr1 u2 sr2 ↔ HasFields w [(15, 12, 1), (11, 9, regNum dr), (8, 6, regNum sr1), (5, 5, 0),
      (4, 3, u2.toNat), (2, 0, regNum sr2)]) ∧
    (decode w = .addI dr sr1 imm5 ↔ HasFields w [(15, 12, 1), (11, 9, regNum dr), (8, 6, regNum sr1), (5, 5, 1),
      (4, 0, imm5.toNat)]) ∧
    (decode w = .andR dr sr1 u2 sr2 ↔ HasFields w [(15, 12, 5), (11, 9, regNum dr), (8, 6, regNum sr1), (5, 5, 0),
      (4, 3, u2.toNat), (2, 0, regNum sr2)]) ∧
    (decode w = .andI dr sr1 imm5 ↔ HasFields w [(15, 12, 5), (11, 9, regNum dr), (8, 6, regNum sr1), (5, 5, 1),
      (4, 0, imm5.toNat)]) ∧
    (decode w = .not dr sr1 u6 ↔ HasFields w [(15, 12, 9), (11, 9, regNum dr), (8, 6, regNum sr1), (5, 0, u6.toNat)])

/-- The load, store and LEA rows of the table of 30_encoding.md R85 (opcode values by D1, offset places by D2, log 1). -/
def Obligations.DecodeFieldsOfLoadStoreRows : Prop :=
  ∀ (w : Word) (dr baseR : Reg) (off9 : BitVec 9) (off6 : BitVec 6),
    (decode w = .ld dr off9 ↔ HasFields w [(15, 12, 2), (11, 9, regNum dr), (8, 0, off9.toNat)]) ∧
    (decode w = .ldi dr off9 ↔ HasFields w [(15, 12, 10), (11, 9, regNum dr), (8, 0, off9.toNat)]) ∧
    (decode w = .lea dr off9 ↔ HasFields w [(15, 12, 14), (11, 9, regNum dr), (8, 0, off9.toNat)]) ∧
    (decode w = .st dr off9 ↔ HasFields w [(15, 12, 3), (11, 9, regNum dr), (8, 0, off9.toNat)]) ∧
    (decode w = .sti dr off9 ↔ HasFields w [(15, 12, 11), (11, 9, regNum dr), (8, 0, off9.toNat)]) ∧
    (decode w = .ldr dr baseR off6 ↔ HasFields w [(15, 12, 6), (11, 9, regNum dr), (8, 6, regNum baseR),
      (5, 0, off6.toNat)]) ∧
    (decode w = .str dr baseR off6 ↔ HasFields w [(15, 12, 7), (11, 9, regNum dr), (8, 6, regNum baseR),
      (5, 0, off6.toNat)])

/-- The control-transfer rows of the table of 30_encoding.md R85 (opcode values by D1, offset places by D2, log 1). -/
def Obligations.DecodeFieldsOfControlRows : Prop :=
  ∀ (w : Word) (baseR : Reg) (nzp u3 : BitVec 3) (off9 : BitVec 9) (off11 : BitVec 11) (u2 : BitVec 2) (u6 : BitVec 6),
    (decode w = .br nzp off9 ↔ HasFields w [(15, 12, 0), (11, 9, nzp.toNat), (8, 0, off9.toNat)]) ∧
    (decode w = .jmp u3 baseR u6 ↔ HasFields w [(15, 12, 12), (11, 9, u3.toNat), (8, 6, regNum baseR), (5, 0, u6.toNat)]) ∧
    (decode w = .jsr off11 ↔ HasFields w [(15, 12, 4), (11, 11, 1), (10, 0, off11.toNat)]) ∧
    (decode w = .jsrr u2 baseR u6 ↔ HasFields w [(15, 12, 4), (11, 11, 0), (10, 9, u2.toNat), (8, 6, regNum baseR),
      (5, 0, u6.toNat)])

/-- The TRAP words, with the six services first and TRAP for every other vector, and the reserved opcodes (30_encoding.md R85,
R88, R89; opcode 15 by D1, log 1; service rows first by the table's note, log 20). -/
def Obligations.DecodeFieldsOfTrapAndReservedRows : Prop :=
  ∀ (w : Word) (u : BitVec 4) (v : BitVec 8) (u12 : BitVec 12),
    (decode w = .getc u ↔ HasFields w [(15, 12, 15), (11, 8, u.toNat), (7, 0, 0x20)]) ∧
    (decode w = .out u ↔ HasFields w [(15, 12, 15), (11, 8, u.toNat), (7, 0, 0x21)]) ∧
    (decode w = .puts u ↔ HasFields w [(15, 12, 15), (11, 8, u.toNat), (7, 0, 0x22)]) ∧
    (decode w = .inp u ↔ HasFields w [(15, 12, 15), (11, 8, u.toNat), (7, 0, 0x23)]) ∧
    (decode w = .putsp u ↔ HasFields w [(15, 12, 15), (11, 8, u.toNat), (7, 0, 0x24)]) ∧
    (decode w = .halt u ↔ HasFields w [(15, 12, 15), (11, 8, u.toNat), (7, 0, 0x25)]) ∧
    (decode w = .trap u v ↔
      ¬(0x20 ≤ v.toNat ∧ v.toNat ≤ 0x25) ∧ HasFields w [(15, 12, 15), (11, 8, u.toNat), (7, 0, v.toNat)]) ∧
    (decode w = .rti u12 ↔ HasFields w [(15, 12, 8), (11, 0, u12.toNat)]) ∧
    (decode w = .res u12 ↔ HasFields w [(15, 12, 13), (11, 0, u12.toNat)])

/-- Two words that differ only in bits no handler reads behave identically, but for the word a fault record keeps
(30_encoding.md R90; the spec's choice D4, log 3; the record by D6, log 5). -/
def Obligations.UnreadBitsHaveNoEffect : Prop :=
  ∀ (dr sr1 sr2 : Reg) (a2 b2 : BitVec 2) (a3 b3 : BitVec 3) (a4 b4 : BitVec 4) (a6 b6 : BitVec 6) (v : BitVec 8)
    (a12 b12 : BitVec 12) (s t : State),
    exec (.addR dr sr1 a2 sr2) s = exec (.addR dr sr1 b2 sr2) s ∧
    exec (.andR dr sr1 a2 sr2) s = exec (.andR dr sr1 b2 sr2) s ∧
    exec (.not dr sr1 a6) s = exec (.not dr sr1 b6) s ∧
    exec (.jmp a3 sr1 a6) s = exec (.jmp b3 sr1 b6) s ∧
    exec (.jsrr a2 sr1 a6) s = exec (.jsrr b2 sr1 b6) s ∧
    exec (.getc a4) s = exec (.getc b4) s ∧ exec (.out a4) s = exec (.out b4) s ∧
    exec (.puts a4) s = exec (.puts b4) s ∧ exec (.inp a4) s = exec (.inp b4) s ∧
    exec (.putsp a4) s = exec (.putsp b4) s ∧ exec (.halt a4) s = exec (.halt b4) s ∧
    (exec (.trap a4 v) s = .next t → ∃ f, exec (.trap b4 v) s = .next { t with fault := f }) ∧
    (exec (.rti a12) s = .next t → ∃ f, exec (.rti b12) s = .next { t with fault := f }) ∧
    (exec (.res a12) s = .next t → ∃ f, exec (.res b12) s = .next { t with fault := f })

/-! ### Numbers, bytes and the flag rule -/

/-- `sext_16` of the four field widths, as the formula of 00_scope.md R9 and as the same signed integer. -/
def Obligations.SignExtensionOfFields : Prop :=
  (∀ f : BitVec 5, (sext16 f).toNat = (if f.getLsbD 4 then f.toNat + (65536 - 2 ^ 5) else f.toNat) ∧ (sext16 f).toInt = f.toInt) ∧
  (∀ f : BitVec 6, (sext16 f).toNat = (if f.getLsbD 5 then f.toNat + (65536 - 2 ^ 6) else f.toNat) ∧ (sext16 f).toInt = f.toInt) ∧
  (∀ f : BitVec 9, (sext16 f).toNat = (if f.getLsbD 8 then f.toNat + (65536 - 2 ^ 9) else f.toNat) ∧ (sext16 f).toInt = f.toInt) ∧
  (∀ f : BitVec 11, (sext16 f).toNat = (if f.getLsbD 10 then f.toNat + (65536 - 2 ^ 11) else f.toNat) ∧ (sext16 f).toInt = f.toInt)

/-- `zext_16`, `low8` and `high8` (00_scope.md R10; zero extension is the spec's choice D10, log 15). -/
def Obligations.ByteWordConversions : Prop :=
  ∀ (b : Byte) (v : Word),
    bits (zext16 b) 7 0 = b.toNat ∧ bits (zext16 b) 15 8 = 0 ∧ (low8 v).toNat = bits v 7 0 ∧ (high8 v).toNat = bits v 15 8

/-- `setcc(v)`: N if the sign bit is set, Z if the value is zero, P otherwise; it writes only `cond` (10_state.md R27). -/
def Obligations.SetccFollowsSignAndZero : Prop :=
  ∀ (s : State) (v : Word),
    ((s.setCC v).cond = .n ↔ v.toInt < 0) ∧ ((s.setCC v).cond = .z ↔ v.toInt = 0) ∧ ((s.setCC v).cond = .p ↔ 0 < v.toInt) ∧
    FlagOf v (s.setCC v).cond ∧ { s.setCC v with cond := s.cond } = s

/-- The address forms and JSR's target, modulo 65536 with unscaled signed offsets (41_load_store.md R127; 42_control.md R143;
the places of the offsets in the word are D2, log 1). -/
def Obligations.EffectiveAddressesWrap : Prop :=
  ∀ (s : State) (baseR : Reg) (off9 : BitVec 9) (off6 : BitVec 6) (off11 : BitVec 11),
    ((s.pcRel9 off9).toNat : Int) = (s.pc.toNat + off9.toInt) % 65536 ∧
    ((s.baseOff6 baseR off6).toNat : Int) = ((s.reg baseR).toNat + off6.toInt) % 65536 ∧
    ((s.pcRel11 off11).toNat : Int) = (s.pc.toNat + off11.toInt) % 65536 ∧
    -256 ≤ off9.toInt ∧ off9.toInt ≤ 255 ∧ -32 ≤ off6.toInt ∧ off6.toInt ≤ 31 ∧ -1024 ≤ off11.toInt ∧ off11.toInt ≤ 1023

/-! ### Registers and memory -/

/-- A register read gives the most recent write, all 16 bits of it; a write changes that register and nothing else; every
index names a register and no two indices the same one (10_state.md R20). -/
def Obligations.RegisterWriteThenRead : Prop :=
  (∀ (s : State) (r q : Reg) (v : Word),
    (s.setReg r v).reg q = (if q = r then v else s.reg q) ∧ { s.setReg r v with regs := s.regs } = s) ∧
  (∀ f : BitVec 3, regNum (Reg.ofField f) = f.toNat) ∧ (∀ r : Reg, (Reg.ofField r.toField) = r)

/-- `MemWrite(a, 1, v)` replaces the cell at `a` and nothing else, at every address, 0xFE00 and 0xFE02 among them; it calls no
keyboard interface (20_memory.md R55; 10_state.md R35). -/
def Obligations.CellWriteThenRead : Prop :=
  ∀ (s : State) (a b v : Word), s.mem.wf = true →
    (s.memWrite a v).cell b = (if b = a then v else s.cell b) ∧ { s.memWrite a v with mem := s.mem } = s

/-- Every write keeps the canonical form of memory, and so does loading an image (the model's representation, logs 7, 8). -/
def Obligations.MemoryStaysCanonical : Prop :=
  (∀ (m : Memory) (a v : Word), m.wf = true → (m.write a.toNat v).wf = true) ∧
  (∀ (image : List Byte) (m : Memory), m.wf = true → (loadImage image m).wf = true)

/-- Canonical memories with the same 65,536 cells are equal data (the model's representation, logs 7, 8). -/
def Obligations.CanonicalMemoriesEqualByContent : Prop :=
  ∀ m₁ m₂ : Memory, m₁.wf = true → m₂.wf = true → (∀ a : Word, m₁.read a.toNat = m₂.read a.toNat) → m₁ = m₂

/-- One `MemRead` at any address: a plain read of the cell, but at 0xFE00 exactly one poll first, whose value the read returns
(20_memory.md R52, R53, R54; the zero upper byte of KBDR is D10, log 15; bytes arriving at the poll are log 10). -/
def Obligations.MemReadPollsOnlyKbsr : Prop :=
  ∀ (s : State) (a : Word), s.mem.wf = true → Reads a s (s.memRead a).1 (s.memRead a).2

/-! ### Operate instructions -/

/-- ADD in both modes completes in every state: the sum modulo 65536 of the old sources, the flag from it, nothing else
(40_operate.md R110, R111, R116). -/
def Obligations.AddDefinesSumAndFlag : Prop :=
  ∀ (dr sr1 sr2 : Reg) (u : BitVec 2) (imm5 : BitVec 5) (s : State),
    (∃ t, exec (.addR dr sr1 u sr2) s = .next t ∧
      (t.reg dr).toNat = ((s.reg sr1).toNat + (s.reg sr2).toNat) % 65536 ∧ FlagOf (t.reg dr) t.cond ∧ OnlyResult dr s t) ∧
    (∃ t, exec (.addI dr sr1 imm5) s = .next t ∧
      ((t.reg dr).toNat : Int) = ((s.reg sr1).toNat + imm5.toInt) % 65536 ∧ FlagOf (t.reg dr) t.cond ∧ OnlyResult dr s t)

/-- AND in both modes completes in every state: the bitwise AND of the old sources, an immediate sign-extended first, the flag
from it, nothing else (40_operate.md R112, R113, R116). -/
def Obligations.AndDefinesBitsAndFlag : Prop :=
  ∀ (dr sr1 sr2 : Reg) (u : BitVec 2) (imm5 : BitVec 5) (s : State),
    (∃ t, exec (.andR dr sr1 u sr2) s = .next t ∧
      (∀ k < 16, (t.reg dr).getLsbD k = ((s.reg sr1).getLsbD k && (s.reg sr2).getLsbD k)) ∧
      FlagOf (t.reg dr) t.cond ∧ OnlyResult dr s t) ∧
    (∃ t, exec (.andI dr sr1 imm5) s = .next t ∧
      (∀ k < 16, (t.reg dr).getLsbD k = ((s.reg sr1).getLsbD k && imm5.getLsbD (min k 4))) ∧
      FlagOf (t.reg dr) t.cond ∧ OnlyResult dr s t)

/-- NOT completes in every state: 65535 minus the old source, the flag from it, nothing else (40_operate.md R114, R116). -/
def Obligations.NotDefinesComplementAndFlag : Prop :=
  ∀ (dr sr1 : Reg) (u : BitVec 6) (s : State),
    ∃ t, exec (.not dr sr1 u) s = .next t ∧
      (t.reg dr).toNat = 65535 - (s.reg sr1).toNat ∧ FlagOf (t.reg dr) t.cond ∧ OnlyResult dr s t

/-! ### Loads, LEA and stores -/

/-- LD and LDR complete in every state with canonical memory (log 7): one read of the effective address, formed from the old
registers; the register and the flag from the word read; nothing else but the read's own effect (41_load_store.md R120, R122,
R128). -/
def Obligations.LdAndLdrLoadOneWord : Prop :=
  ∀ (dr baseR : Reg) (off9 : BitVec 9) (off6 : BitVec 6) (s : State), s.mem.wf = true →
    (∃ v m t, Reads (s.pcRel9 off9) s v m ∧ exec (.ld dr off9) s = .next t ∧ Loaded dr v m t) ∧
    (∃ v m t, Reads (s.baseOff6 baseR off6) s v m ∧ exec (.ldr dr baseR off6) s = .next t ∧ Loaded dr v m t)

/-- LDI completes in every state with canonical memory (log 7): the pointer read, then the data read at the pointer, both
through the read path; register and flag from the data (41_load_store.md R121, R128; 20_memory.md R56 by the spec's choice D9,
log 14). -/
def Obligations.LdiLoadsThroughPointer : Prop :=
  ∀ (dr : Reg) (off9 : BitVec 9) (s : State), s.mem.wf = true →
    ∃ p m₁ v m₂ t, Reads (s.pcRel9 off9) s p m₁ ∧ Reads p m₁ v m₂ ∧ exec (.ldi dr off9) s = .next t ∧ Loaded dr v m₂ t

/-- LEA completes in every state: the address, the flag from it, no memory access, nothing else (41_load_store.md R123). -/
def Obligations.LeaDefinesAddressAndFlag : Prop :=
  ∀ (dr : Reg) (off9 : BitVec 9) (s : State),
    ∃ t, exec (.lea dr off9) s = .next t ∧
      ((t.reg dr).toNat : Int) = (s.pc.toNat + off9.toInt) % 65536 ∧ FlagOf (t.reg dr) t.cond ∧ OnlyResult dr s t

/-- ST and STR complete in every state with canonical memory (log 7): the cell at the effective address takes the register's
word; every other cell, every register, the flag and all else stay (41_load_store.md R124, R126, R128; 20_memory.md R55). -/
def Obligations.StAndStrStoreOneCell : Prop :=
  ∀ (sr baseR : Reg) (off9 : BitVec 9) (off6 : BitVec 6) (s : State), s.mem.wf = true →
    (∃ t, exec (.st sr off9) s = .next t ∧ Stored (s.pcRel9 off9) (s.reg sr) s t) ∧
    (∃ t, exec (.str sr baseR off6) s = .next t ∧ Stored (s.baseOff6 baseR off6) (s.reg sr) s t)

/-- STI completes in every state with canonical memory (log 7): the pointer read through the read path, then the store at the
pointer; nothing else (41_load_store.md R125, R128; 20_memory.md R56 by the spec's choice D9, log 14). -/
def Obligations.StiStoresThroughPointer : Prop :=
  ∀ (sr : Reg) (off9 : BitVec 9) (s : State), s.mem.wf = true →
    ∃ p m t, Reads (s.pcRel9 off9) s p m ∧ exec (.sti sr off9) s = .next t ∧ Stored p (s.reg sr) m t

/-- After an STI whose pointer cell holds `a`, and anything that leaves the cell at `a` alone, an LDI whose pointer cell holds
`a` loads the stored word and sets its flag, `a` being no keyboard register and neither pointer cell 0xFE00, whose content no
read returns (41_load_store.md R129). -/
def Obligations.StiThenLdiRoundTrip : Prop :=
  ∀ (s t u : State) (sr dr : Reg) (off off' : BitVec 9) (a : Word), s.mem.wf = true →
    s.pcRel9 off ≠ 0xFE00 → s.cell (s.pcRel9 off) = a → a ≠ 0xFE00 → a ≠ 0xFE02 → exec (.sti sr off) s = .next t →
    u.cell a = t.cell a → u.pcRel9 off' ≠ 0xFE00 → u.cell (u.pcRel9 off') = a →
    ∃ v, exec (.ldi dr off') u = .next v ∧ v.reg dr = s.reg sr ∧ v.cond = (u.setCC (s.reg sr)).cond

/-! ### Control transfer -/

/-- BR completes in every state: taken exactly when n and N, z and Z, or p and P meet; the target wraps; nothing but `pc`
changes (42_control.md R140, R141; the pairing of mask and flag bits is the spec's choice D3, log 2). -/
def Obligations.BrTakenByMaskAndFlag : Prop :=
  ∀ (n z p : Bool) (off9 : BitVec 9) (s : State),
    ∃ t, exec (.br (BitVec.ofBool n ++ BitVec.ofBool z ++ BitVec.ofBool p) off9) s = .next t ∧
      ((n = true ∧ s.cond = .n) ∨ (z = true ∧ s.cond = .z) ∨ (p = true ∧ s.cond = .p) →
        (t.pc.toNat : Int) = (s.pc.toNat + off9.toInt) % 65536) ∧
      (¬((n = true ∧ s.cond = .n) ∨ (z = true ∧ s.cond = .z) ∨ (p = true ∧ s.cond = .p)) → t.pc = s.pc) ∧
      OnlyPc [] s t

/-- JMP, JSR and JSRR complete in every state. JMP goes to the register; JSR saves `pc` in R7 and adds the offset; JSRR saves
first and reads the base then, so that JSRR R7 goes to the saved address (42_control.md R142, R143, R144; the order in JSRR is
the document's, kept by D16, log 18). No flag changes. -/
def Obligations.JumpsAndCallsSetPc : Prop :=
  ∀ (baseR : Reg) (u3 : BitVec 3) (u2 : BitVec 2) (u6 : BitVec 6) (off11 : BitVec 11) (s : State),
    (∃ t, exec (.jmp u3 baseR u6) s = .next t ∧ t.pc = s.reg baseR ∧ OnlyPc [] s t) ∧
    (∃ t, exec (.jsr off11) s = .next t ∧ t.reg .r7 = s.pc ∧
      (t.pc.toNat : Int) = (s.pc.toNat + off11.toInt) % 65536 ∧ OnlyPc [.r7] s t) ∧
    (∃ t, exec (.jsrr u2 baseR u6) s = .next t ∧ t.reg .r7 = s.pc ∧
      t.pc = (if baseR = .r7 then s.pc else s.reg baseR) ∧ OnlyPc [.r7] s t)

/-- After a JSR or JSRR fetched from A, R7 holds A + 1 (the `pc` of `s`), and a later JMP R7 goes there if R7 was not written
in between (42_control.md R146). -/
def Obligations.ReturnGoesAfterTheCall : Prop :=
  ∀ (s t u : State) (off11 : BitVec 11) (baseR : Reg) (u2 : BitVec 2) (u3 : BitVec 3) (u6 u6' : BitVec 6),
    exec (.jsr off11) s = .next t ∨ exec (.jsrr u2 baseR u6) s = .next t →
    t.reg .r7 = s.pc ∧ (u.reg .r7 = t.reg .r7 → ∃ v, exec (.jmp u3 .r7 u6') u = .next v ∧ v.pc = s.pc)

/-! ### TRAP and the services -/

/-- TRAP answers a next state for every vector: R7 takes `pc`, `pc` stays, and only R7 and, for GETC and IN, R0 are written;
the six vectors run the services, any other faults (43_trap.md R150, R151; the fault by D5, log 4). The next state may be one
in which the service is still in progress: GETC and IN with no byte yet (log 11), PUTS and PUTSP whose string has not ended
(log 12). -/
def Obligations.TrapLinksAndRoutes : Prop :=
  ∀ (u : BitVec 4) (v : BitVec 8) (s : State),
    (∃ t, exec (.trap u v) s = .next t ∧ t.reg .r7 = s.pc ∧ t.pc = s.pc ∧
      RegsKept (if v = 0x20 ∨ v = 0x23 then [.r0, .r7] else [.r7]) s t ∧
      (t.status = .faulted ↔ ¬(0x20 ≤ v.toNat ∧ v.toNat ≤ 0x25) ∨ (v ≠ 0x25 ∧ s.status = .faulted))) ∧
    exec (.trap u 0x20) s = exec (.getc u) s ∧ exec (.trap u 0x21) s = exec (.out u) s ∧
    exec (.trap u 0x22) s = exec (.puts u) s ∧ exec (.trap u 0x23) s = exec (.inp u) s ∧
    exec (.trap u 0x24) s = exec (.putsp u) s ∧ exec (.trap u 0x25) s = exec (.halt u) s

/-- TRAP with an undefined vector takes the BAD_TRAP_VECTOR fault after R7 is written; nothing else changes and nothing is
emitted (43_trap.md R158; 60_exceptions.md R173). The policy is the spec's choice D5 (log 4), the record's shape D6 (log 5). -/
def Obligations.UndefinedVectorFaults : Prop :=
  ∀ (u : BitVec 4) (v : BitVec 8) (s : State), ¬(0x20 ≤ v.toNat ∧ v.toNat ≤ 0x25) →
    ∃ t, exec (.trap u v) s = .next t ∧ t.status = .faulted ∧
      t.fault = some { cause := .badTrapVector, addr := s.pc - 1, ir := encode (.trap u v) } ∧
      t.reg .r7 = s.pc ∧ RegsKept [.r7] s t ∧ t.pc = s.pc ∧ t.cond = s.cond ∧ MemKept s t ∧ InputKept s t ∧
      t.outq = s.outq ∧ t.hold = s.hold

/-- GETC completes as soon as a byte is there: R0 takes it zero-extended, the flag is Z or P, nothing is echoed, that one byte
is consumed; with none within the step's wait it is held with only R7 written (43_trap.md R150, R152, R159; zero extension by
D10, log 15; the wait and the held state are log 11; what the environment supplies is any schedule and any free input, log
10). -/
def Obligations.GetcTakesOneByteOrIsHeld : Prop :=
  ∀ (u : BitVec 4) (s : State),
    (∀ b rest, upcoming s (waits s) = b :: rest →
      ∃ t, exec (.getc u) s = .next t ∧ (t.reg .r0).toNat = b.toNat ∧ t.cond = (if b.toNat = 0 then .z else .p) ∧
        t.reg .r7 = s.pc ∧ RegsKept [.r0, .r7] s t ∧ MemKept s t ∧ t.pc = s.pc ∧ RunKept s t ∧
        (∃ k ≤ waits s, InputMoved k [b] s t) ∧ t.outq = s.outq) ∧
    (upcoming s (waits s) = [] →
      ∃ t, exec (.getc u) s = .next t ∧ t.hold = some .getc ∧ t.reg .r7 = s.pc ∧ RegsKept [.r7] s t ∧ MemKept s t ∧
        t.pc = s.pc ∧ t.cond = s.cond ∧ t.status = s.status ∧ t.fault = s.fault ∧ InputMoved (waits s) [] s t ∧
        t.outq = s.outq)

/-- IN emits the prompt, then as soon as a byte is there echoes it and gives it to R0, zero-extended, with the flag Z or P;
with none within the step's wait it is held, the prompt emitted and R7 written (43_trap.md R150, R155, R159). For every prompt
text (D13, log 16); that prompt and echo go to the output queue is D14 (log 17); zero extension by D10 (log 15); the wait and
the held state are log 11. -/
def Obligations.InPromptsReadsAndEchoes : Prop :=
  ∀ (u : BitVec 4) (s : State),
    (∀ b rest, upcoming s (waits s) = b :: rest →
      ∃ t, exec (.inp u) s = .next t ∧ (t.reg .r0).toNat = b.toNat ∧ t.cond = (if b.toNat = 0 then .z else .p) ∧
        t.reg .r7 = s.pc ∧ RegsKept [.r0, .r7] s t ∧ MemKept s t ∧ t.pc = s.pc ∧ RunKept s t ∧
        (∃ k ≤ waits s, InputMoved k [b] s t) ∧ t.outq = s.outq ++ Config.inPrompt ++ [b]) ∧
    (upcoming s (waits s) = [] →
      ∃ t, exec (.inp u) s = .next t ∧ t.hold = some .inp ∧ t.reg .r7 = s.pc ∧ RegsKept [.r7] s t ∧ MemKept s t ∧
        t.pc = s.pc ∧ t.cond = s.cond ∧ t.status = s.status ∧ t.fault = s.fault ∧ InputMoved (waits s) [] s t ∧
        t.outq = s.outq ++ Config.inPrompt)

/-- OUT completes in every state: one byte, the low byte of R0; only R7 is written; it never blocks (43_trap.md R150, R153). -/
def Obligations.OutEmitsLowByte : Prop :=
  ∀ (u : BitVec 4) (s : State),
    ∃ t b, exec (.out u) s = .next t ∧ b.toNat = (s.reg .r0).toNat % 256 ∧ t.outq = s.outq ++ [b] ∧
      t.reg .r7 = s.pc ∧ RegsKept [.r7] s t ∧ MemKept s t ∧ t.pc = s.pc ∧ t.cond = s.cond ∧ RunKept s t ∧ InputKept s t

/-- PUTS does what the loop of 43_trap.md R154 does from R0, the low byte of each word emitted (D11, log 15): its step ends as
the loop ends, or leaves the instruction in progress once no zero word stood in a whole cycle of addresses (R160, log 12);
where the environment supplies nothing after its schedule it ends. Only R7 is written, and the cells of the keyboard registers
by polls alone; that string reads poll at 0xFE00 is the spec's choice D9 (log 14). For every state with canonical memory (log
7). -/
def Obligations.PutsFollowsItsLoop : Prop :=
  ∀ (u : BitVec 4) (s : State), s.mem.wf = true →
    ∃ t, exec (.puts u) s = .next t ∧ StringStep (fun w => [low8 w]) .puts (s.reg .r0) (s.setReg .r7 s.pc) t ∧
      (s.later = .nothing → Prints (fun w => [low8 w]) (s.reg .r0) (s.setReg .r7 s.pc) t) ∧
      t.reg .r7 = s.pc ∧ RegsKept [.r7] s t ∧ MemKeptBut [0xFE00, 0xFE02] s t ∧
      t.pc = s.pc ∧ t.cond = s.cond ∧ t.status = s.status ∧ t.fault = s.fault ∧
      (t.hold = s.hold ∨ ∃ b, t.hold = some (.puts b))

/-- PUTSP does what the loop of 43_trap.md R156 does from R0: the low byte of each word always, then the high byte if nonzero
(D12, log 15): its step ends as the loop ends, or leaves the instruction in progress once no zero word stood in a whole cycle
of addresses (R160, log 12); where the environment supplies nothing after its schedule it ends. Only R7 is written, and the
cells of the keyboard registers by polls alone; that string reads poll at 0xFE00 is the spec's choice D9 (log 14). For every
state with canonical memory (log 7). -/
def Obligations.PutspFollowsItsLoop : Prop :=
  ∀ (u : BitVec 4) (s : State), s.mem.wf = true →
    ∃ t, exec (.putsp u) s = .next t ∧ StringStep (fun w => if high8 w = 0 then [low8 w] else [low8 w, high8 w]) .putsp (s.reg .r0) (s.setReg .r7 s.pc) t ∧
      (s.later = .nothing → Prints (fun w => if high8 w = 0 then [low8 w] else [low8 w, high8 w]) (s.reg .r0) (s.setReg .r7 s.pc) t) ∧
      t.reg .r7 = s.pc ∧ RegsKept [.r7] s t ∧ MemKeptBut [0xFE00, 0xFE02] s t ∧
      t.pc = s.pc ∧ t.cond = s.cond ∧ t.status = s.status ∧ t.fault = s.fault ∧
      (t.hold = s.hold ∨ ∃ b, t.hold = some (.putsp b))

/-- PUTS and PUTSP over a string of nonzero words, ended by a zero word and away from 0xFE00, complete in their step whatever
the environment does, emit the bytes of its words in order and touch neither memory nor input (43_trap.md R154, R156; low byte
by D11, D12, log 15). -/
def Obligations.StringServicesEmitTheString : Prop :=
  ∀ (u : BitVec 4) (s : State) (ws : List Word),
    (∀ k (h : k < ws.length), s.cell (s.reg .r0 + BitVec.ofNat 16 k) = ws[k] ∧ ws[k] ≠ 0 ∧
      s.reg .r0 + BitVec.ofNat 16 k ≠ 0xFE00) →
    s.cell (s.reg .r0 + BitVec.ofNat 16 ws.length) = 0 → s.reg .r0 + BitVec.ofNat 16 ws.length ≠ 0xFE00 →
    (∃ t, exec (.puts u) s = .next t ∧ t.outq = s.outq ++ ws.map low8 ∧ MemKept s t ∧ InputKept s t ∧ RunKept s t) ∧
    (∃ t, exec (.putsp u) s = .next t ∧
      t.outq = s.outq ++ ws.flatMap (fun w => if high8 w = 0 then [low8 w] else [low8 w, high8 w]) ∧
      MemKept s t ∧ InputKept s t ∧ RunKept s t)

/-- HALT completes in every state: the announcement, status HALTED, R7 written as by every TRAP; nothing else (43_trap.md
R150, R157; for every text, D13, log 16; that it goes to the output queue is D14, log 17; R7 by D17, log 18). -/
def Obligations.HaltStopsTheCore : Prop :=
  ∀ (u : BitVec 4) (s : State),
    ∃ t, exec (.halt u) s = .next t ∧ t.status = .halted ∧ t.fault = s.fault ∧ t.outq = s.outq ++ Config.haltMsg ∧
      t.reg .r7 = s.pc ∧ RegsKept [.r7] s t ∧ MemKept s t ∧ t.pc = s.pc ∧ t.cond = s.cond ∧ InputKept s t ∧ t.hold = s.hold

/-- RTI and RES take the RESERVED_OPCODE fault: the record (cause 1, A, the word) and status FAULTED, nothing else
(60_exceptions.md R171, R172, R173; the record's shape is D6, log 5). -/
def Obligations.ReservedOpcodesFault : Prop :=
  ∀ (u : BitVec 12) (s : State) (i : Instr), i = .rti u ∨ i = .res u →
    ∃ t, exec i s = .next t ∧ t.status = .faulted ∧
      t.fault = some { cause := .reservedOpcode, addr := s.pc - 1, ir := encode i } ∧
      FaultCause.code .reservedOpcode = 1 ∧ FaultCause.code .badTrapVector = 2 ∧
      RegsKept [] s t ∧ MemKept s t ∧ t.pc = s.pc ∧ t.cond = s.cond ∧ InputKept s t ∧ t.outq = s.outq ∧ t.hold = s.hold

/-- A held GETC or IN: a step completes it with the first byte that is there within its wait, zero-extended in R0 with its
flag, the echo by IN only; with none the step changes nothing but that the environment has acted (43_trap.md R152, R155, R159;
zero extension by D10, log 15; the echo to the output queue by D14, log 17; the held state is log 11). -/
def Obligations.HeldReadWaitsForAByte : Prop :=
  ∀ (h : Hold) (s : State), h = .getc ∨ h = .inp → s.status = .running → s.hold = some h →
    (upcoming s (waits s) = [] → ∃ t, step s = .next t ∧ OnlyInput s t ∧ InputMoved (waits s) [] s t) ∧
    (∀ b rest, upcoming s (waits s) = b :: rest →
      ∃ t, step s = .next t ∧ t.hold = none ∧ (t.reg .r0).toNat = b.toNat ∧ t.cond = (if b.toNat = 0 then .z else .p) ∧
        RegsKept [.r0] s t ∧ MemKept s t ∧ t.pc = s.pc ∧ t.status = .running ∧ t.fault = s.fault ∧
        (∃ k ≤ waits s, InputMoved k [b] s t) ∧ t.outq = s.outq ++ (if h = .inp then [b] else []))

/-- A held GETC or IN is lifted by the first byte the environment ever supplies, within as many steps as it acts times, and by
nothing else: while none comes the core stays held and RUNNING (43_trap.md R159, D15; zero extension by D10, log 15; the held
state is log 11). -/
def Obligations.HeldReadEndsWithTheFirstByte : Prop :=
  ∀ (h : Hold) (s : State), h = .getc ∨ h = .inp → s.status = .running → s.hold = some h →
    (∀ n b rest, upcoming s n = b :: rest →
      ∃ j ≤ n + 1, ∃ t, stepN j s = some t ∧ t.hold = none ∧ t.status = .running ∧ (t.reg .r0).toNat = b.toNat) ∧
    ((∀ n, upcoming s n = []) → ∀ j, ∃ t, stepN j s = some t ∧ OnlyInput s t)

/-- A PUTS or PUTSP in progress goes on from the address it reads next, as from its start (43_trap.md R154, R156, R160; the
state in progress is log 12; string reads poll by D9, log 14; bytes by D11, D12, log 15). -/
def Obligations.StringInProgressGoesOn : Prop :=
  ∀ (f : Word → List Byte) (held : Word → Hold) (a : Word) (s : State), isStringService f held →
    s.status = .running → s.hold = some (held a) → s.mem.wf = true →
    ∃ t, step s = .next t ∧ StringStep f held a { s with hold := none } t ∧ RegsKept [] s t ∧
      MemKeptBut [0xFE00, 0xFE02] s t ∧ t.pc = s.pc ∧ t.cond = s.cond ∧ t.status = .running ∧ t.fault = s.fault

/-- A PUTS or PUTSP in progress comes to the state its loop ends in, if the loop ends; if it does not, the core stays in
progress and RUNNING for ever, its output growing by at least a byte for each of 65,536 words a step: the hang of 43_trap.md
R160 (D21; the state in progress is log 12; string reads poll by D9, log 14; bytes by D11, D12, log 15). -/
def Obligations.StringEndsExactlyWhenItsLoopDoes : Prop :=
  ∀ (f : Word → List Byte) (held : Word → Hold) (a : Word) (s : State), isStringService f held →
    s.status = .running → s.hold = some (held a) →
    (∀ t, Prints f a { s with hold := none } t → ∃ j, stepN j s = some t) ∧
    ((¬∃ t, Prints f a { s with hold := none } t) → ∀ j, ∃ t, stepN j s = some t ∧ t.status = .running ∧
      (∃ b, t.hold = some (held b)) ∧ ∃ bs, t.outq = s.outq ++ bs ∧ 65536 * j ≤ bs.length)

/-! ### The step -/

/-- A running core with no service in progress fetches through the read path, increments `pc`, and runs the decoded
instruction (60_exceptions.md R170). That a fetch from 0xFE00 polls is the spec's choice D9 (20_memory.md R56, log 14). -/
def Obligations.StepRunsDecodedInstruction : Prop :=
  ∀ s : State, s.status = .running → s.hold = none →
    step s = exec (decode (s.memRead s.pc).1) { (s.memRead s.pc).2 with pc := s.pc + 1 }

/-- When the cell at `pc` holds the word of a well-formed instruction, the step is that instruction's `exec` with `pc` moved
past it, wherever it lies but at 0xFE00, where the fetch is the poll by D9 (60_exceptions.md R170; 20_memory.md R56, log 14). -/
def Obligations.StepRunsEncodedInstruction : Prop :=
  ∀ (s : State) (i : Instr), s.status = .running → s.hold = none → s.pc ≠ 0xFE00 → i.wellFormed = true →
    s.cell s.pc = encode i → step s = exec i { s with pc := s.pc + 1 }

/-- The word placed for the host is the instruction the very next step runs, from every state with canonical memory (the
model's interface, logs 9, 21). -/
def Obligations.PlacedWordRunsNext : Prop :=
  ∀ (s : State) (nbits w : Nat), s.mem.wf = true → w < 65536 →
    step (s.withFetchWord nbits w) =
      exec (decode (BitVec.ofNat 16 w)) { s.withFetchWord nbits w with pc := (s.withFetchWord nbits w).pc + 1 }

/-- The values reset leaves, and the first step, which fetches 0x3000 whatever was loaded, for every value of the open
parameters and every environment (10_state.md R39; 70_reset_and_hazards.md R200, R201). -/
def Obligations.ResetAndFirstFetch : Prop :=
  ∀ (gpr : RegFile) (m : Memory) (inq : List Byte) (arrivals : List (List Byte)) (later : Later) (s : State),
    s = State.resetWith gpr m inq arrivals later →
    s.pc.toNat = 0x3000 ∧ s.cond = .z ∧ s.status = .running ∧ s.fault = none ∧ s.outq = [] ∧ s.regs = gpr ∧ s.mem = m ∧
    s.inq = inq ∧ s.hold = none ∧ step s = exec (decode (m.read 0x3000)) { s with pc := 0x3001 }

/-- HALTED and FAULTED have no step, and a running core always has one: no instruction, no data and no address ends a run but
through `status` (60_exceptions.md R172, R176; a held read's step is log 11, the step of an endless string log 12; the
terminal answers are log 13). -/
def Obligations.RunningCoreAlwaysSteps : Prop :=
  ∀ s : State,
    (s.status = .running → ∃ t, step s = .next t) ∧ (s.status = .halted → step s = .fault .coreHalted) ∧
    (s.status = .faulted → step s = .fault .coreFaulted)

/-! ### Whole-machine rules -/

/-- How each instruction advances `pc` (10_state.md R24; the test of a taken BR is 42_control.md R140 with the bits of D3, log
2; JSRR R7 goes to the address just saved by D16, log 18; an undefined vector's fault is D5, log 4; a fetch from 0xFE00 polls
by D9, log 14). -/
def Obligations.PcAfterEachStep : Prop :=
  ∀ s t : State, s.status = .running → s.hold = none → step s = .next t →
    (∀ nzp off9, decode (s.memRead s.pc).1 = .br nzp off9 →
      t.pc = if nzp &&& condBits s.cond = 0 then s.pc + 1 else s.pc + 1 + sext16 off9) ∧
    (∀ u r u', decode (s.memRead s.pc).1 = .jmp u r u' → t.pc = s.reg r) ∧
    (∀ off11, decode (s.memRead s.pc).1 = .jsr off11 → t.pc = s.pc + 1 + sext16 off11) ∧
    (∀ u r u', decode (s.memRead s.pc).1 = .jsrr u r u' → t.pc = if r = .r7 then s.pc + 1 else s.reg r) ∧
    ((∀ nzp off9, decode (s.memRead s.pc).1 ≠ .br nzp off9) → (∀ u r u', decode (s.memRead s.pc).1 ≠ .jmp u r u') →
      (∀ off11, decode (s.memRead s.pc).1 ≠ .jsr off11) → (∀ u r u', decode (s.memRead s.pc).1 ≠ .jsrr u r u') →
      t.pc = s.pc + 1)

/-- Every transition of `status`: only from RUNNING; to HALTED exactly by a HALT word; to FAULTED exactly by a reserved opcode
or a TRAP word with an undefined vector (10_state.md R30; the latter by D5, log 4; opcode 15 by D1, log 1; a fetch from 0xFE00
polls by D9, log 14). -/
def Obligations.StatusTransitions : Prop :=
  ∀ s t : State, step s = .next t →
    s.status = .running ∧
    (t.status = .halted ↔
      s.hold = none ∧ bits (s.memRead s.pc).1 15 12 = 15 ∧ bits (s.memRead s.pc).1 7 0 = 0x25) ∧
    (t.status = .faulted ↔ s.hold = none ∧
      (bits (s.memRead s.pc).1 15 12 = 8 ∨ bits (s.memRead s.pc).1 15 12 = 13 ∨
        (bits (s.memRead s.pc).1 15 12 = 15 ∧
          ¬(0x20 ≤ bits (s.memRead s.pc).1 7 0 ∧ bits (s.memRead s.pc).1 7 0 ≤ 0x25))))

/-- No instruction writes a general register, or the flag, that 10_state.md R21 and R28 do not give it. -/
def Obligations.RegisterAndFlagWriters : Prop :=
  ∀ (i : Instr) (s t : State), exec i s = .next t →
    RegsKept (writesRegs i) s t ∧ (writesFlag i = false → t.cond = s.cond)

/-- No instruction reads a general register that 10_state.md R21 does not give it: with another value in that register it does
the same, the register itself apart, which holds its own value or what the instruction writes. -/
def Obligations.RegistersReadAsListed : Prop :=
  ∀ (i : Instr) (s t : State) (r : Reg) (v : Word), r ∉ readsRegs i → exec i s = .next t →
    ∃ t', exec i (s.setReg r v) = .next t' ∧ RegsKept [r] t t' ∧ (t'.reg r = t.reg r ∨ t'.reg r = v) ∧
      { t' with regs := t.regs } = t

/-- The flag is read only by BR: any other instruction does the same whatever the flag is, and leaves the flag as it would or
as it was (10_state.md R28). -/
def Obligations.FlagReadOnlyByBr : Prop :=
  ∀ (i : Instr) (s t : State) (c : Cond), (∀ nzp off9, i ≠ .br nzp off9) → exec i s = .next t →
    ∃ t', exec i { s with cond := c } = .next t' ∧ { t' with cond := t.cond } = t ∧
      (t'.cond = t.cond ∨ (t.cond = s.cond ∧ t'.cond = c))

/-- Only ST, STI and STR write memory, beside the poll's own writes of 0xFE00 and 0xFE02: an instruction that reads no memory
and is no store leaves every cell as it was, and one that reads leaves the memory that its reads, one after another, leave
(20_memory.md R55, R58, R59; which reads poll is D9, log 14). -/
def Obligations.OnlyStoresWriteMemory : Prop :=
  ∀ (i : Instr) (s t : State), isStore i = false → exec i s = .next t →
    (readsMemory i = false → MemKept s t) ∧ (∃ m, AfterReads s m ∧ MemKept m t) ∧
    (s.mem.wf = true → MemKeptBut [0xFE00, 0xFE02] s t)

/-- Output is only appended and input only taken from the front, in the order the environment supplies it, by every step of
every state (00_scope.md R12, R13; that all output goes through one queue is D14, log 17). -/
def Obligations.OutputAppendsInputIsFifo : Prop :=
  ∀ s t : State, step s = .next t →
    (∃ emitted, t.outq = s.outq ++ emitted) ∧ (∃ k taken, InputMoved k taken s t)

/-- A store by ST, STI or STR into the next instruction's cell is the instruction the next step runs (20_memory.md R65).
Neither the store nor the next instruction lies at 0xFE00, whose fetch is the poll (D9, log 14). -/
def Obligations.StoreIsSeenByNextFetch : Prop :=
  ∀ (s : State) (sr baseR : Reg) (off9 : BitVec 9) (off6 : BitVec 6) (i : Instr), s.mem.wf = true → s.status = .running →
    s.hold = none → s.pc ≠ 0xFE00 → s.pc + 1 ≠ 0xFE00 → s.cell s.pc = encode i →
    (i = .st sr off9 ∧ (s.setPc (s.pc + 1)).pcRel9 off9 = s.pc + 1) ∨
      (i = .str sr baseR off6 ∧ s.baseOff6 baseR off6 = s.pc + 1) ∨
      (i = .sti sr off9 ∧ (s.memRead ((s.setPc (s.pc + 1)).pcRel9 off9)).1 = s.pc + 1) →
    ∃ t, step s = .next t ∧ t.pc = s.pc + 1 ∧ step t = exec (decode (s.reg sr)) { t with pc := s.pc + 2 }

/-- An image is placed from its origin word on, most significant byte first, one word a cell, up to the last address 0xFFFF
and no further; every other cell stays (70_reset_and_hazards.md R205; logs 8, 23). -/
def Obligations.LoaderPlacesImageAtOrigin : Prop :=
  ∀ (origin : Word) (ws : List Word) (m : Memory) (a : Word), m.wf = true →
    (∀ k (h : k < ws.length), a.toNat = origin.toNat + k →
      (loadImage ((origin :: ws).flatMap fun w => [high8 w, low8 w]) m).read a.toNat = ws[k]) ∧
    (a.toNat < origin.toNat ∨ origin.toNat + ws.length ≤ a.toNat →
      (loadImage ((origin :: ws).flatMap fun w => [high8 w, low8 w]) m).read a.toNat = m.read a.toNat)

/-! ### The invariant -/

/-- The invariant holds at reset, for every loaded canonical memory and every value of the other open parameters, and so in
`State.reset` (10_state.md R39; logs 6, 7, 9, 10). -/
def Obligations.InvariantHoldsAtReset : Prop :=
  (∀ (gpr : RegFile) (m : Memory) (inq : List Byte) (arrivals : List (List Byte)) (later : Later), m.wf = true →
    Inv (State.resetWith gpr m inq arrivals later)) ∧ Inv State.reset

/-- Every step keeps the invariant, from every state that has it: memory canonical, a fault record exactly when FAULTED and
one that fits its word, its address and the link, only a running core with a service in progress, its link saved (10_state.md
R29, R31; 60_exceptions.md R171 to R174; 43_trap.md R150, R158, R159, R160; records by D6, log 5; the undefined vector by D5,
log 4; services in progress by logs 11, 12). -/
def Obligations.EveryStepKeepsInvariant : Prop :=
  ∀ s t : State, Inv s → step s = .next t → Inv t
end

