-- ==== Sys2Proof/Laws/State.lean ====
section
/-! SUPPORT. One lemma per field of State per update, true by unfolding, so that no later proof unfolds a record update. -/

namespace Sys2Proof.Machine

/-! ### setReg -/

@[simp] theorem State.setReg_regs (s : State) (r : Reg) (v : Word) : (s.setReg r v).regs = s.regs.set r v := rfl
@[simp] theorem State.setReg_pc (s : State) (r : Reg) (v : Word) : (s.setReg r v).pc = s.pc := rfl
@[simp] theorem State.setReg_cond (s : State) (r : Reg) (v : Word) : (s.setReg r v).cond = s.cond := rfl
@[simp] theorem State.setReg_status (s : State) (r : Reg) (v : Word) : (s.setReg r v).status = s.status := rfl
@[simp] theorem State.setReg_fault (s : State) (r : Reg) (v : Word) : (s.setReg r v).fault = s.fault := rfl
@[simp] theorem State.setReg_mem (s : State) (r : Reg) (v : Word) : (s.setReg r v).mem = s.mem := rfl
@[simp] theorem State.setReg_inq (s : State) (r : Reg) (v : Word) : (s.setReg r v).inq = s.inq := rfl
@[simp] theorem State.setReg_outq (s : State) (r : Reg) (v : Word) : (s.setReg r v).outq = s.outq := rfl
@[simp] theorem State.setReg_hold (s : State) (r : Reg) (v : Word) : (s.setReg r v).hold = s.hold := rfl
@[simp] theorem State.setReg_arrivals (s : State) (r : Reg) (v : Word) : (s.setReg r v).arrivals = s.arrivals := rfl
@[simp] theorem State.setReg_later (s : State) (r : Reg) (v : Word) : (s.setReg r v).later = s.later := rfl

/-! ### setPc -/

@[simp] theorem State.setPc_regs (s : State) (p : Word) : (s.setPc p).regs = s.regs := rfl
@[simp] theorem State.setPc_pc (s : State) (p : Word) : (s.setPc p).pc = p := rfl
@[simp] theorem State.setPc_cond (s : State) (p : Word) : (s.setPc p).cond = s.cond := rfl
@[simp] theorem State.setPc_status (s : State) (p : Word) : (s.setPc p).status = s.status := rfl
@[simp] theorem State.setPc_fault (s : State) (p : Word) : (s.setPc p).fault = s.fault := rfl
@[simp] theorem State.setPc_mem (s : State) (p : Word) : (s.setPc p).mem = s.mem := rfl
@[simp] theorem State.setPc_inq (s : State) (p : Word) : (s.setPc p).inq = s.inq := rfl
@[simp] theorem State.setPc_outq (s : State) (p : Word) : (s.setPc p).outq = s.outq := rfl
@[simp] theorem State.setPc_hold (s : State) (p : Word) : (s.setPc p).hold = s.hold := rfl
@[simp] theorem State.setPc_arrivals (s : State) (p : Word) : (s.setPc p).arrivals = s.arrivals := rfl
@[simp] theorem State.setPc_later (s : State) (p : Word) : (s.setPc p).later = s.later := rfl

/-! ### setCC -/

@[simp] theorem State.setCC_regs (s : State) (v : Word) : (s.setCC v).regs = s.regs := rfl
@[simp] theorem State.setCC_pc (s : State) (v : Word) : (s.setCC v).pc = s.pc := rfl
@[simp] theorem State.setCC_cond (s : State) (v : Word) : (s.setCC v).cond = condOf v := rfl
@[simp] theorem State.setCC_status (s : State) (v : Word) : (s.setCC v).status = s.status := rfl
@[simp] theorem State.setCC_fault (s : State) (v : Word) : (s.setCC v).fault = s.fault := rfl
@[simp] theorem State.setCC_mem (s : State) (v : Word) : (s.setCC v).mem = s.mem := rfl
@[simp] theorem State.setCC_inq (s : State) (v : Word) : (s.setCC v).inq = s.inq := rfl
@[simp] theorem State.setCC_outq (s : State) (v : Word) : (s.setCC v).outq = s.outq := rfl
@[simp] theorem State.setCC_hold (s : State) (v : Word) : (s.setCC v).hold = s.hold := rfl
@[simp] theorem State.setCC_arrivals (s : State) (v : Word) : (s.setCC v).arrivals = s.arrivals := rfl
@[simp] theorem State.setCC_later (s : State) (v : Word) : (s.setCC v).later = s.later := rfl

/-! ### result -/

@[simp] theorem State.result_regs (s : State) (dr : Reg) (v : Word) : (s.result dr v).regs = s.regs.set dr v := rfl
@[simp] theorem State.result_pc (s : State) (dr : Reg) (v : Word) : (s.result dr v).pc = s.pc := rfl
@[simp] theorem State.result_cond (s : State) (dr : Reg) (v : Word) : (s.result dr v).cond = condOf v := rfl
@[simp] theorem State.result_status (s : State) (dr : Reg) (v : Word) : (s.result dr v).status = s.status := rfl
@[simp] theorem State.result_fault (s : State) (dr : Reg) (v : Word) : (s.result dr v).fault = s.fault := rfl
@[simp] theorem State.result_mem (s : State) (dr : Reg) (v : Word) : (s.result dr v).mem = s.mem := rfl
@[simp] theorem State.result_inq (s : State) (dr : Reg) (v : Word) : (s.result dr v).inq = s.inq := rfl
@[simp] theorem State.result_outq (s : State) (dr : Reg) (v : Word) : (s.result dr v).outq = s.outq := rfl
@[simp] theorem State.result_hold (s : State) (dr : Reg) (v : Word) : (s.result dr v).hold = s.hold := rfl
@[simp] theorem State.result_arrivals (s : State) (dr : Reg) (v : Word) : (s.result dr v).arrivals = s.arrivals := rfl
@[simp] theorem State.result_later (s : State) (dr : Reg) (v : Word) : (s.result dr v).later = s.later := rfl

/-! ### setCell -/

@[simp] theorem State.setCell_regs (s : State) (a v : Word) : (s.setCell a v).regs = s.regs := rfl
@[simp] theorem State.setCell_pc (s : State) (a v : Word) : (s.setCell a v).pc = s.pc := rfl
@[simp] theorem State.setCell_cond (s : State) (a v : Word) : (s.setCell a v).cond = s.cond := rfl
@[simp] theorem State.setCell_status (s : State) (a v : Word) : (s.setCell a v).status = s.status := rfl
@[simp] theorem State.setCell_fault (s : State) (a v : Word) : (s.setCell a v).fault = s.fault := rfl
@[simp] theorem State.setCell_mem (s : State) (a v : Word) : (s.setCell a v).mem = s.mem.write a.toNat v := rfl
@[simp] theorem State.setCell_inq (s : State) (a v : Word) : (s.setCell a v).inq = s.inq := rfl
@[simp] theorem State.setCell_outq (s : State) (a v : Word) : (s.setCell a v).outq = s.outq := rfl
@[simp] theorem State.setCell_hold (s : State) (a v : Word) : (s.setCell a v).hold = s.hold := rfl
@[simp] theorem State.setCell_arrivals (s : State) (a v : Word) : (s.setCell a v).arrivals = s.arrivals := rfl
@[simp] theorem State.setCell_later (s : State) (a v : Word) : (s.setCell a v).later = s.later := rfl

/-! ### memWrite -/

@[simp] theorem State.memWrite_regs (s : State) (a v : Word) : (s.memWrite a v).regs = s.regs := rfl
@[simp] theorem State.memWrite_pc (s : State) (a v : Word) : (s.memWrite a v).pc = s.pc := rfl
@[simp] theorem State.memWrite_cond (s : State) (a v : Word) : (s.memWrite a v).cond = s.cond := rfl
@[simp] theorem State.memWrite_status (s : State) (a v : Word) : (s.memWrite a v).status = s.status := rfl
@[simp] theorem State.memWrite_fault (s : State) (a v : Word) : (s.memWrite a v).fault = s.fault := rfl
@[simp] theorem State.memWrite_mem (s : State) (a v : Word) : (s.memWrite a v).mem = s.mem.write a.toNat v := rfl
@[simp] theorem State.memWrite_inq (s : State) (a v : Word) : (s.memWrite a v).inq = s.inq := rfl
@[simp] theorem State.memWrite_outq (s : State) (a v : Word) : (s.memWrite a v).outq = s.outq := rfl
@[simp] theorem State.memWrite_hold (s : State) (a v : Word) : (s.memWrite a v).hold = s.hold := rfl
@[simp] theorem State.memWrite_arrivals (s : State) (a v : Word) : (s.memWrite a v).arrivals = s.arrivals := rfl
@[simp] theorem State.memWrite_later (s : State) (a v : Word) : (s.memWrite a v).later = s.later := rfl

/-! ### outBytes -/

@[simp] theorem State.outBytes_regs (s : State) (bs : List Byte) : (s.outBytes bs).regs = s.regs := rfl
@[simp] theorem State.outBytes_pc (s : State) (bs : List Byte) : (s.outBytes bs).pc = s.pc := rfl
@[simp] theorem State.outBytes_cond (s : State) (bs : List Byte) : (s.outBytes bs).cond = s.cond := rfl
@[simp] theorem State.outBytes_status (s : State) (bs : List Byte) : (s.outBytes bs).status = s.status := rfl
@[simp] theorem State.outBytes_fault (s : State) (bs : List Byte) : (s.outBytes bs).fault = s.fault := rfl
@[simp] theorem State.outBytes_mem (s : State) (bs : List Byte) : (s.outBytes bs).mem = s.mem := rfl
@[simp] theorem State.outBytes_inq (s : State) (bs : List Byte) : (s.outBytes bs).inq = s.inq := rfl
@[simp] theorem State.outBytes_outq (s : State) (bs : List Byte) : (s.outBytes bs).outq = s.outq ++ bs := rfl
@[simp] theorem State.outBytes_hold (s : State) (bs : List Byte) : (s.outBytes bs).hold = s.hold := rfl
@[simp] theorem State.outBytes_arrivals (s : State) (bs : List Byte) : (s.outBytes bs).arrivals = s.arrivals := rfl
@[simp] theorem State.outBytes_later (s : State) (bs : List Byte) : (s.outBytes bs).later = s.later := rfl

/-! ### link -/

@[simp] theorem State.link_regs (s : State) : (s.link).regs = s.regs.set .r7 s.pc := rfl
@[simp] theorem State.link_pc (s : State) : (s.link).pc = s.pc := rfl
@[simp] theorem State.link_cond (s : State) : (s.link).cond = s.cond := rfl
@[simp] theorem State.link_status (s : State) : (s.link).status = s.status := rfl
@[simp] theorem State.link_fault (s : State) : (s.link).fault = s.fault := rfl
@[simp] theorem State.link_mem (s : State) : (s.link).mem = s.mem := rfl
@[simp] theorem State.link_inq (s : State) : (s.link).inq = s.inq := rfl
@[simp] theorem State.link_outq (s : State) : (s.link).outq = s.outq := rfl
@[simp] theorem State.link_hold (s : State) : (s.link).hold = s.hold := rfl
@[simp] theorem State.link_arrivals (s : State) : (s.link).arrivals = s.arrivals := rfl
@[simp] theorem State.link_later (s : State) : (s.link).later = s.later := rfl

/-! ### raiseFault -/

@[simp] theorem State.raiseFault_regs (s : State) (c : FaultCause) (ir : Word) : (s.raiseFault c ir).regs = s.regs := rfl
@[simp] theorem State.raiseFault_pc (s : State) (c : FaultCause) (ir : Word) : (s.raiseFault c ir).pc = s.pc := rfl
@[simp] theorem State.raiseFault_cond (s : State) (c : FaultCause) (ir : Word) : (s.raiseFault c ir).cond = s.cond := rfl
@[simp] theorem State.raiseFault_status (s : State) (c : FaultCause) (ir : Word) : (s.raiseFault c ir).status = .faulted := rfl
@[simp] theorem State.raiseFault_fault (s : State) (c : FaultCause) (ir : Word) : (s.raiseFault c ir).fault = some { cause := c, addr := s.pc - 1, ir := ir } := rfl
@[simp] theorem State.raiseFault_mem (s : State) (c : FaultCause) (ir : Word) : (s.raiseFault c ir).mem = s.mem := rfl
@[simp] theorem State.raiseFault_inq (s : State) (c : FaultCause) (ir : Word) : (s.raiseFault c ir).inq = s.inq := rfl
@[simp] theorem State.raiseFault_outq (s : State) (c : FaultCause) (ir : Word) : (s.raiseFault c ir).outq = s.outq := rfl
@[simp] theorem State.raiseFault_hold (s : State) (c : FaultCause) (ir : Word) : (s.raiseFault c ir).hold = s.hold := rfl
@[simp] theorem State.raiseFault_arrivals (s : State) (c : FaultCause) (ir : Word) : (s.raiseFault c ir).arrivals = s.arrivals := rfl
@[simp] theorem State.raiseFault_later (s : State) (c : FaultCause) (ir : Word) : (s.raiseFault c ir).later = s.later := rfl

/-! ### outFlush, and reads of updated states -/

@[simp] theorem State.outFlush_eq (s : State) : s.outFlush = s := rfl

/-- A register read looks only at the register file. -/
theorem State.reg_eq (s : State) (r : Reg) : s.reg r = s.regs.get r := rfl

/-- A cell read looks only at the memory. -/
theorem State.cell_eq (s : State) (a : Word) : s.cell a = s.mem.read a.toNat := rfl

/-! ### Registers and cells of updated states that do not touch them -/

@[simp] theorem State.reg_setPc (s : State) (p : Word) (r : Reg) : (s.setPc p).reg r = s.reg r := rfl
@[simp] theorem State.reg_setCC (s : State) (v : Word) (r : Reg) : (s.setCC v).reg r = s.reg r := rfl
@[simp] theorem State.reg_setCell (s : State) (a v : Word) (r : Reg) : (s.setCell a v).reg r = s.reg r := rfl
@[simp] theorem State.reg_memWrite (s : State) (a v : Word) (r : Reg) : (s.memWrite a v).reg r = s.reg r := rfl
@[simp] theorem State.reg_outBytes (s : State) (bs : List Byte) (r : Reg) : (s.outBytes bs).reg r = s.reg r := rfl
@[simp] theorem State.reg_raiseFault (s : State) (c : FaultCause) (ir : Word) (r : Reg) : (s.raiseFault c ir).reg r = s.reg r := rfl
@[simp] theorem State.cell_setPc (s : State) (p : Word) (a : Word) : (s.setPc p).cell a = s.cell a := rfl
@[simp] theorem State.cell_setCC (s : State) (v : Word) (a : Word) : (s.setCC v).cell a = s.cell a := rfl
@[simp] theorem State.cell_setReg (s : State) (r : Reg) (v : Word) (a : Word) : (s.setReg r v).cell a = s.cell a := rfl
@[simp] theorem State.cell_result (s : State) (dr : Reg) (v : Word) (a : Word) : (s.result dr v).cell a = s.cell a := rfl
@[simp] theorem State.cell_link (s : State) (a : Word) : (s.link).cell a = s.cell a := rfl
@[simp] theorem State.cell_outBytes (s : State) (bs : List Byte) (a : Word) : (s.outBytes bs).cell a = s.cell a := rfl
@[simp] theorem State.cell_raiseFault (s : State) (c : FaultCause) (ir : Word) (a : Word) : (s.raiseFault c ir).cell a = s.cell a := rfl

end Sys2Proof.Machine
end

