-- ==== Sys2Proof/Laws/Registers.lean ====
section
/-! SUPPORT. Register numbers and the register file. -/

namespace Sys2Proof

@[simp] theorem Reg.ofField_toField (r : Reg) : Reg.ofField r.toField = r := by cases r <;> rfl

@[simp] theorem Reg.toField_ofField (f : BitVec 3) : (Reg.ofField f).toField = f := by revert f; decide

namespace Machine

/-- A register file read after a write: the new value in the written register, the old value in every other. -/
@[simp] theorem RegFile.get_set (f : RegFile) (r q : Reg) (v : Word) :
    (f.set r v).get q = if q = r then v else f.get q := by
  cases r <;> cases q <;> rfl

/-- Register files with the same eight contents are equal. -/
theorem RegFile.ext_get {f g : RegFile} (h : ∀ r, f.get r = g.get r) : f = g := by
  obtain ⟨f0, f1, f2, f3, f4, f5, f6, f7⟩ := f
  obtain ⟨g0, g1, g2, g3, g4, g5, g6, g7⟩ := g
  have h0 := h .r0; have h1 := h .r1; have h2 := h .r2; have h3 := h .r3
  have h4 := h .r4; have h5 := h .r5; have h6 := h .r6; have h7 := h .r7
  simp only [RegFile.get] at h0 h1 h2 h3 h4 h5 h6 h7
  simp [h0, h1, h2, h3, h4, h5, h6, h7]

@[simp] theorem State.reg_setReg (s : State) (r q : Reg) (v : Word) :
    (s.setReg r v).reg q = if q = r then v else s.reg q := RegFile.get_set s.regs r q v

@[simp] theorem State.reg_link (s : State) (q : Reg) : s.link.reg q = if q = .r7 then s.pc else s.reg q :=
  RegFile.get_set s.regs .r7 q s.pc

@[simp] theorem State.reg_result (s : State) (r q : Reg) (v : Word) :
    (s.result r v).reg q = if q = r then v else s.reg q := RegFile.get_set s.regs r q v

end Machine
end Sys2Proof
end

