-- ==== Sys2Proof/Laws/Encoding.lean ====
section
/-! SUPPORT. Words as numbers: the value of a concatenation of fields, and of a register field. -/

namespace Sys2Proof

open Sys2Proof.Safety

/-- A concatenation as a number. -/
theorem toNat_append_add {m n : Nat} (x : BitVec m) (y : BitVec n) : (x ++ y).toNat = x.toNat * 2 ^ n + y.toNat := by
  rw [BitVec.toNat_append, ← Nat.shiftLeft_add_eq_or_of_lt y.isLt, Nat.shiftLeft_eq]

theorem regNum_eq (r : Reg) : regNum r = r.toField.toNat := by cases r <;> rfl

@[simp] theorem regNum_ofField (f : BitVec 3) : regNum (Reg.ofField f) = f.toNat := by
  rw [regNum_eq, Reg.toField_ofField]

theorem regNum_lt (r : Reg) : regNum r < 8 := by cases r <;> decide

/-- Different registers have different numbers. -/
theorem regNum_inj {r q : Reg} (h : regNum r = regNum q) : r = q := by
  revert h; cases r <;> cases q <;> decide

/-- A bit of a word, from its number. -/
theorem getLsbD_eq_decide (w : Word) (k : Nat) : w.getLsbD k = decide (w.toNat / 2 ^ k % 2 = 1) := by
  rw [BitVec.getLsbD, Nat.testBit_eq_decide_div_mod_eq]

/-- A field of a word, from its number. -/
theorem extract_toNat (w : Word) (lo len : Nat) : (w.extractLsb' lo len).toNat = w.toNat / 2 ^ lo % 2 ^ len := by
  simp [Nat.shiftRight_eq_div_pow]

/-- The word of an instruction as a number: its fields at their places in the table of 30_encoding.md R85. -/
def encodeNum : Instr → Nat
  | .addR dr sr1 unread sr2 => 1 * 4096 + regNum dr * 512 + regNum sr1 * 64 + unread.toNat * 8 + regNum sr2
  | .addI dr sr1 imm5 => 1 * 4096 + regNum dr * 512 + regNum sr1 * 64 + 32 + imm5.toNat
  | .andR dr sr1 unread sr2 => 5 * 4096 + regNum dr * 512 + regNum sr1 * 64 + unread.toNat * 8 + regNum sr2
  | .andI dr sr1 imm5 => 5 * 4096 + regNum dr * 512 + regNum sr1 * 64 + 32 + imm5.toNat
  | .not dr sr1 unread => 9 * 4096 + regNum dr * 512 + regNum sr1 * 64 + unread.toNat
  | .ld dr off9 => 2 * 4096 + regNum dr * 512 + off9.toNat
  | .ldi dr off9 => 10 * 4096 + regNum dr * 512 + off9.toNat
  | .lea dr off9 => 14 * 4096 + regNum dr * 512 + off9.toNat
  | .st sr off9 => 3 * 4096 + regNum sr * 512 + off9.toNat
  | .sti sr off9 => 11 * 4096 + regNum sr * 512 + off9.toNat
  | .ldr dr baseR off6 => 6 * 4096 + regNum dr * 512 + regNum baseR * 64 + off6.toNat
  | .str sr baseR off6 => 7 * 4096 + regNum sr * 512 + regNum baseR * 64 + off6.toNat
  | .br nzp off9 => nzp.toNat * 512 + off9.toNat
  | .jmp unreadHi baseR unreadLo => 12 * 4096 + unreadHi.toNat * 512 + regNum baseR * 64 + unreadLo.toNat
  | .jsr off11 => 4 * 4096 + 2048 + off11.toNat
  | .jsrr unreadHi baseR unreadLo => 4 * 4096 + unreadHi.toNat * 512 + regNum baseR * 64 + unreadLo.toNat
  | .trap unread vect8 => 15 * 4096 + unread.toNat * 256 + vect8.toNat
  | .getc unread => 15 * 4096 + unread.toNat * 256 + 0x20
  | .out unread => 15 * 4096 + unread.toNat * 256 + 0x21
  | .puts unread => 15 * 4096 + unread.toNat * 256 + 0x22
  | .inp unread => 15 * 4096 + unread.toNat * 256 + 0x23
  | .putsp unread => 15 * 4096 + unread.toNat * 256 + 0x24
  | .halt unread => 15 * 4096 + unread.toNat * 256 + 0x25
  | .rti unread => 8 * 4096 + unread.toNat
  | .res unread => 13 * 4096 + unread.toNat

/-- The encoder as a number: what every fact about encodings is proved from. -/
theorem encode_toNat (i : Instr) : (encode i).toNat = encodeNum i := by
  cases i <;> refine (toNat_append_add _ _).trans ?_ <;>
    simp only [toNat_append_add, encodeNum, regNum_eq, BitVec.toNat_ofNat] <;> omega

end Sys2Proof
end

