-- ==== Sys2Proof/Laws/Flags.lean ====
section
/-! SUPPORT. The flag rule and the sign-extended sums, as numbers. -/

namespace Sys2Proof.Machine

open Sys2Proof.Safety

/-- The flag of a word is the one of its range (10_state.md R27). -/
theorem flagOf_condOf (v : Word) : FlagOf v (condOf v) := by
  have hlt := v.isLt
  have h : v.getLsbD 15 = decide (0x8000 ≤ v.toNat) := by
    rw [getLsbD_eq_decide, decide_eq_decide]
    omega
  have h0 : v = 0 ↔ v.toNat = 0 := by rw [← BitVec.toNat_inj]; simp
  simp only [FlagOf, condOf, h, decide_eq_true_eq, h0]
  split
  · refine ⟨fun _ => rfl, fun _ => ?_, fun _ => ?_⟩ <;> omega
  · split
    · refine ⟨fun _ => ?_, fun _ => rfl, fun _ => ?_⟩ <;> omega
    · refine ⟨fun _ => ?_, fun _ => ?_, fun _ => rfl⟩ <;> omega

/-- A sign-extended field keeps its signed value (00_scope.md R9). -/
theorem toInt_sext16 {n : Nat} (f : BitVec n) (h : n ≤ 16) : (sext16 f).toInt = f.toInt := by
  rw [sext16, BitVec.toInt_signExtend_of_le h]

/-- A word plus a sign-extended field, modulo 65536 (00_scope.md R8, R9). -/
theorem toNat_add_sext16 {n : Nat} (a : Word) (f : BitVec n) (h : n ≤ 16) :
    ((a + sext16 f).toNat : Int) = (a.toNat + f.toInt) % 65536 := by
  rw [← toInt_sext16 f h, BitVec.toInt_eq_toNat_cond, BitVec.toNat_add]
  split <;> omega

/-- A byte in a word (00_scope.md R10). -/
theorem toNat_zext16 (b : Byte) : (zext16 b).toNat = b.toNat := by
  have := b.isLt
  rw [zext16, BitVec.toNat_setWidth]
  omega

/-- The flag of a zero-extended byte is Z or P, never N (43_trap.md R152). -/
theorem condOf_zext16 (b : Byte) : condOf (zext16 b) = if b.toNat = 0 then .z else .p := by
  have hlt := b.isLt
  obtain ⟨-, hz, hp⟩ := flagOf_condOf (zext16 b)
  rw [toNat_zext16] at hz hp
  split
  · exact hz ‹_›
  · exact hp (by omega)

end Sys2Proof.Machine
end

