-- ==== Sys2Proof/Laws/Memory.lean ====
section
/-! SUPPORT. Memory: the canonical form, read after write, and equality by content. -/

namespace Sys2Proof.Machine

/-- A canonical memory from `lo` on lists nothing below `lo`. -/
theorem Memory.read_below {lo a : Nat} {m : Memory} (h : m.wfFrom lo = true) (ha : a < lo) :
    m.read a = Config.memUnlisted := by
  induction m generalizing lo with
  | nil => rfl
  | cons c rest ih =>
    obtain ⟨k, v⟩ := c
    simp only [Memory.wfFrom, Bool.and_eq_true, decide_eq_true_eq] at h
    have hk : k ≠ a := by omega
    simp only [Memory.read, if_neg hk]
    exact ih h.2 (by omega)

/-- The canonical form from a higher address is the canonical form from a lower one. -/
theorem Memory.wfFrom_mono {lo lo' : Nat} {m : Memory} (hl : lo' ≤ lo) (h : m.wfFrom lo = true) :
    m.wfFrom lo' = true := by
  cases m with
  | nil => rfl
  | cons c rest =>
    obtain ⟨k, v⟩ := c
    simp only [Memory.wfFrom, Bool.and_eq_true, decide_eq_true_eq] at h ⊢
    exact ⟨⟨⟨by omega, h.1.1.2⟩, h.1.2⟩, h.2⟩

theorem Memory.wfFrom_consCell {lo a : Nat} {v : Word} {m : Memory} (hl : lo ≤ a) (ha : a < 65536)
    (h : m.wfFrom (a + 1) = true) : (Memory.consCell a v m).wfFrom lo = true := by
  by_cases hv : v = Config.memUnlisted
  · rw [Memory.consCell, if_pos hv]
    exact Memory.wfFrom_mono (by omega) h
  · rw [Memory.consCell, if_neg hv]
    simp only [Memory.wfFrom, Bool.and_eq_true, decide_eq_true_eq]
    exact ⟨⟨⟨hl, ha⟩, hv⟩, h⟩

/-- A write keeps the canonical form. -/
theorem Memory.wfFrom_write {lo a : Nat} {v : Word} {m : Memory} (hl : lo ≤ a) (ha : a < 65536)
    (h : m.wfFrom lo = true) : (m.write a v).wfFrom lo = true := by
  induction m generalizing lo with
  | nil => exact Memory.wfFrom_consCell hl ha rfl
  | cons c rest ih =>
    obtain ⟨k, w⟩ := c
    have hc := h
    simp only [Memory.wfFrom, Bool.and_eq_true, decide_eq_true_eq] at hc
    simp only [Memory.write]
    split
    · refine Memory.wfFrom_consCell hl ha ?_
      simp only [Memory.wfFrom, Bool.and_eq_true, decide_eq_true_eq]
      exact ⟨⟨⟨by omega, hc.1.1.2⟩, hc.1.2⟩, hc.2⟩
    · split
      · rename_i hk
        subst hk
        exact Memory.wfFrom_consCell hl ha hc.2
      · simp only [Memory.wfFrom, Bool.and_eq_true, decide_eq_true_eq]
        exact ⟨hc.1, ih (by omega) hc.2⟩

theorem Memory.read_consCell {a b : Nat} {v : Word} {m : Memory} (h : m.wfFrom (a + 1) = true) :
    (Memory.consCell a v m).read b = if b = a then v else m.read b := by
  by_cases hv : v = Config.memUnlisted
  · rw [Memory.consCell, if_pos hv]
    split
    · rename_i hb
      rw [hb, Memory.read_below h (by omega), hv]
    · rfl
  · rw [Memory.consCell, if_neg hv]
    by_cases hb : b = a
    · simp [Memory.read, hb]
    · simp [Memory.read, hb, Ne.symm hb]

/-- A read after a write: the written word at its address, the old content everywhere else. -/
theorem Memory.read_write {lo a b : Nat} {v : Word} {m : Memory} (h : m.wfFrom lo = true) :
    (m.write a v).read b = if b = a then v else m.read b := by
  induction m generalizing lo with
  | nil => exact Memory.read_consCell rfl
  | cons c rest ih =>
    obtain ⟨k, w⟩ := c
    have hc := h
    simp only [Memory.wfFrom, Bool.and_eq_true, decide_eq_true_eq] at hc
    simp only [Memory.write]
    split
    · refine Memory.read_consCell ?_
      simp only [Memory.wfFrom, Bool.and_eq_true, decide_eq_true_eq]
      exact ⟨⟨⟨by omega, hc.1.1.2⟩, hc.1.2⟩, hc.2⟩
    · split
      · rename_i hk
        subst hk
        rw [Memory.read_consCell hc.2]
        by_cases hb : b = a
        · simp [hb]
        · simp [Memory.read, hb, Ne.symm hb]
      · simp only [Memory.read]
        by_cases hkb : k = b
        · subst hkb
          have : ¬ k = a := by omega
          simp [this]
        · simp only [if_neg hkb]
          exact ih hc.2

/-- The cell read after a cell write, in a state whose memory is canonical. -/
theorem State.cell_setCell {s : State} (h : s.mem.wf = true) (a b v : Word) :
    (s.setCell a v).cell b = if b = a then v else s.cell b := by
  have := Memory.read_write (a := a.toNat) (b := b.toNat) (v := v) h
  simp only [State.cell_eq, State.setCell_mem, this, BitVec.toNat_inj]

/-- A cell write keeps the canonical form. -/
theorem State.wf_setCell {s : State} (h : s.mem.wf = true) (a v : Word) : (s.setCell a v).mem.wf = true :=
  Memory.wfFrom_write (Nat.zero_le _) a.isLt h

end Sys2Proof.Machine
end

