-- ==== Sys2Proof/Laws/Keyboard.lean ====
section
/-! SUPPORT. The keyboard interface and the one read path: everything each of them can do. -/

namespace Sys2Proof.Machine

open Sys2Proof.Safety

/-! ### The environment's arrivals -/

/-- An arrival touches the input alone. -/
theorem onlyInput_arrive (s : State) : OnlyInput s s.arrive := by
  unfold OnlyInput State.arrive
  cases s.arrivals with
  | nil => cases s.later <;> rfl
  | cons bs rest => rfl

@[simp] theorem State.arrive_inq (s : State) : s.arrive.inq = s.inq ++ arrivingAt s 0 := by
  unfold State.arrive arrivingAt
  cases s.arrivals with
  | nil => cases s.later <;> simp [laterBytes]
  | cons bs rest => simp

/-- An arrival moves the environment on by one. -/
theorem arrivingAt_arrive (s : State) (k : Nat) : arrivingAt s.arrive k = arrivingAt s (k + 1) := by
  obtain ⟨regs, pc, cond, status, fault, mem, inq, outq, hold, arrivals, later⟩ := s
  cases arrivals with
  | nil => cases later <;> simp [State.arrive, arrivingAt, laterBytes, Nat.add_assoc, Nat.add_comm 1]
  | cons bs rest => simp [State.arrive, arrivingAt]

@[simp] theorem upcoming_zero (s : State) : upcoming s 0 = s.inq := by simp [upcoming]

/-- The bytes to come are the same after an arrival. -/
theorem upcoming_arrive (s : State) (n : Nat) : upcoming s.arrive n = upcoming s (n + 1) := by
  have e : arrivingAt s.arrive = fun k => arrivingAt s (k + 1) := funext (arrivingAt_arrive s)
  simp only [upcoming, State.arrive_inq, List.range_succ_eq_map, List.flatMap_cons, List.flatMap_map, e, List.append_assoc,
    Nat.succ_eq_add_one]

/-- More of the environment's acts only add bytes behind. -/
theorem upcoming_add (s : State) (n k : Nat) : ∃ bs, upcoming s (n + k) = upcoming s n ++ bs := by
  induction k with
  | zero => exact ⟨[], by simp⟩
  | succ k ih =>
    obtain ⟨bs, h⟩ := ih
    refine ⟨bs ++ arrivingAt s (n + k), ?_⟩
    have e : upcoming s (n + k + 1) = upcoming s (n + k) ++ arrivingAt s (n + k) := by
      simp [upcoming, List.range_succ, List.append_assoc]
    rw [← Nat.add_assoc, e, h, List.append_assoc]

theorem inputMoved_refl (s : State) : InputMoved 0 [] s s := fun n => by simp

theorem inputMoved_arrive (s : State) : InputMoved 1 [] s s.arrive := fun n => by
  rw [upcoming_arrive, Nat.add_comm]
  rfl

/-- What is taken in two moves is taken one after the other. -/
theorem inputMoved_trans {s t u : State} {j k : Nat} {xs ys : List Byte} (h : InputMoved j xs s t) (h' : InputMoved k ys t u) :
    InputMoved (j + k) (xs ++ ys) s u := fun n => by
  rw [Nat.add_assoc, h, h', List.append_assoc]

/-- Input looks only at the three fields of the environment. -/
theorem upcoming_congr {s t : State} (h : InputKept s t) (n : Nat) : upcoming t n = upcoming s n := by
  obtain ⟨h1, h2, h3⟩ := h
  have e : arrivingAt t = arrivingAt s := by
    funext k
    simp only [arrivingAt, h2, h3]
  simp only [upcoming, h1, e]

theorem inputMoved_of_kept {s t : State} (h : InputKept s t) : InputMoved 0 [] s t := fun n => by
  rw [upcoming_congr h, Nat.zero_add]
  rfl

/-! ### KbdRead -/

/-- The wait touches the input alone and takes nothing; it ends with a byte pending or after its whole length. -/
theorem State.awaitByte_cases (n : Nat) (s : State) :
    OnlyInput s (State.awaitByte n s) ∧
      ∃ k ≤ n, InputMoved k [] s (State.awaitByte n s) ∧ ((State.awaitByte n s).inq = [] → k = n) := by
  induction n generalizing s with
  | zero => exact ⟨rfl, 0, Nat.le_refl _, inputMoved_refl s, fun _ => rfl⟩
  | succ n ih =>
    simp only [State.awaitByte]
    split
    · rename_i h
      refine ⟨rfl, 0, Nat.zero_le _, inputMoved_refl s, fun e => ?_⟩
      simp [State.kbdPeek, e] at h
    · obtain ⟨ho, k, hk, hm, he⟩ := ih s.arrive
      refine ⟨?_, 1 + k, by omega, inputMoved_trans (inputMoved_arrive s) hm, fun e => by have := he e; omega⟩
      have ha := onlyInput_arrive s
      unfold OnlyInput at ho ha ⊢
      rw [ho, ha]

/-- All `KbdRead()` can do: take the first byte of the input within the wait and touch nothing but the input, or find that none
is there, with the environment moved on. -/
theorem State.kbdRead_cases (s : State) :
    (∃ b t k, s.kbdRead = (some b, t) ∧ OnlyInput s t ∧ k ≤ waits s ∧ InputMoved k [b] s t ∧
      ∃ rest, upcoming s (waits s) = b :: rest) ∨
    (∃ t, s.kbdRead = (none, t) ∧ OnlyInput s t ∧ InputMoved (waits s) [] s t ∧ upcoming s (waits s) = []) := by
  obtain ⟨ho, k, hk, hm, he⟩ := State.awaitByte_cases (s.arrivals.length + 1) s
  unfold State.kbdRead
  dsimp only
  generalize State.awaitByte (s.arrivals.length + 1) s = t at ho hm he ⊢
  cases hq : t.inq with
  | nil =>
    have hw : k = waits s := he hq
    subst hw
    refine .inr ⟨t, rfl, ho, hm, ?_⟩
    have := hm 0
    simpa [hq] using this
  | cons b rest =>
    have hb : InputMoved k [b] s { t with inq := rest } := fun n => by
      rw [hm n]
      simp only [upcoming, hq]
      rfl
    refine .inl ⟨b, { t with inq := rest }, k, rfl, ?_, hk, hb, ?_⟩
    · unfold OnlyInput at ho ⊢
      rw [ho]
    · obtain ⟨bs, h⟩ := upcoming_add s k (waits s - k)
      rw [Nat.add_sub_cancel' (show k ≤ waits s from hk)] at h
      have h0 := hb 0
      rw [Nat.add_zero] at h0
      exact ⟨upcoming { t with inq := rest } 0 ++ bs, by rw [h, h0]; simp⟩

/-- With a byte pending `KbdRead()` takes it at once. -/
theorem State.kbdRead_pending {s : State} {b : Byte} {rest : List Byte} (h : s.inq = b :: rest) :
    s.kbdRead = (some b, { s with inq := rest }) := by
  simp [State.kbdRead, State.awaitByte, State.kbdPeek, h]

/-! ### The poll and MemRead -/

/-- A poll is one of two: with nothing pending KBSR becomes 0; with a byte pending KBSR becomes 0x8000 and KBDR takes the byte,
which is consumed. -/
theorem State.kbsrPoll_cases (s : State) :
    (s.arrive.inq = [] ∧ s.kbsrPoll = s.arrive.setCell Config.kbsrAddr 0) ∨
    (∃ b rest, s.arrive.inq = b :: rest ∧ s.kbsrPoll =
      (({ s.arrive with inq := rest } : State).setCell Config.kbsrAddr 0x8000).setCell Config.kbdrAddr (zext16 b)) := by
  cases h : s.arrive.inq with
  | nil =>
    have hp : s.arrive.kbdPeek = false := by rw [State.kbdPeek, h]; rfl
    exact .inl ⟨rfl, by simp [State.kbsrPoll, hp]⟩
  | cons b rest =>
    have hp : s.arrive.kbdPeek = true := by rw [State.kbdPeek, h]; rfl
    exact .inr ⟨b, rest, rfl, by simp [State.kbsrPoll, hp, State.kbdRead_pending h]⟩

theorem State.memRead_plain {s : State} {a : Word} (h : a ≠ Config.kbsrAddr) : s.memRead a = (s.cell a, s) := by
  simp [State.memRead, h]

theorem State.memRead_kbsr (s : State) : s.memRead Config.kbsrAddr = (s.kbsrPoll.cell Config.kbsrAddr, s.kbsrPoll) := by
  simp [State.memRead]

/-- A read touches memory and input alone. -/
theorem State.memRead_eq (s : State) (a : Word) :
    (s.memRead a).2 =
      { s with mem := (s.memRead a).2.mem, inq := (s.memRead a).2.inq, arrivals := (s.memRead a).2.arrivals,
               later := (s.memRead a).2.later } := by
  by_cases h : a = Config.kbsrAddr
  · subst h
    have ha := onlyInput_arrive s
    unfold OnlyInput at ha
    rw [State.memRead_kbsr]
    rcases s.kbsrPoll_cases with ⟨-, e⟩ | ⟨b, rest, -, e⟩ <;> dsimp only <;> rw [e, ha] <;> rfl
  · rw [State.memRead_plain h]

@[simp] theorem State.memRead_regs (s : State) (a : Word) : (s.memRead a).2.regs = s.regs := by rw [s.memRead_eq a]
@[simp] theorem State.memRead_pc (s : State) (a : Word) : (s.memRead a).2.pc = s.pc := by rw [s.memRead_eq a]
@[simp] theorem State.memRead_cond (s : State) (a : Word) : (s.memRead a).2.cond = s.cond := by rw [s.memRead_eq a]
@[simp] theorem State.memRead_status (s : State) (a : Word) : (s.memRead a).2.status = s.status := by rw [s.memRead_eq a]
@[simp] theorem State.memRead_fault (s : State) (a : Word) : (s.memRead a).2.fault = s.fault := by rw [s.memRead_eq a]
@[simp] theorem State.memRead_outq (s : State) (a : Word) : (s.memRead a).2.outq = s.outq := by rw [s.memRead_eq a]
@[simp] theorem State.memRead_hold (s : State) (a : Word) : (s.memRead a).2.hold = s.hold := by rw [s.memRead_eq a]
@[simp] theorem State.memRead_reg (s : State) (a : Word) (r : Reg) : (s.memRead a).2.reg r = s.reg r := by
  rw [s.memRead_eq a]; rfl

/-- A read keeps the canonical form of memory. -/
theorem State.memRead_wf {s : State} (h : s.mem.wf = true) (a : Word) : (s.memRead a).2.mem.wf = true := by
  by_cases ha : a = Config.kbsrAddr
  · subst ha
    rw [State.memRead_kbsr]
    have hw : s.arrive.mem.wf = true := by rw [onlyInput_arrive s]; exact h
    rcases s.kbsrPoll_cases with ⟨-, e⟩ | ⟨b, rest, -, e⟩ <;> rw [e]
    · exact State.wf_setCell hw _ _
    · exact State.wf_setCell (State.wf_setCell (s := { s.arrive with inq := rest }) hw _ _) _ _
  · rw [State.memRead_plain ha]
    exact h

/-- The input after a poll: one act of the environment, and the byte taken, if there is one. -/
theorem State.kbsrPoll_moved (s : State) :
    (s.arrive.inq = [] → InputMoved 1 [] s s.kbsrPoll) ∧
    (∀ b rest, s.arrive.inq = b :: rest → InputMoved 1 [b] s s.kbsrPoll) := by
  rcases s.kbsrPoll_cases with ⟨hq, e⟩ | ⟨b, rest, hq, e⟩ <;> rw [hq, e]
  · exact ⟨fun _ => inputMoved_arrive s, nofun⟩
  · refine ⟨nofun, fun b' rest' h' n => ?_⟩
    injection h' with h1 h2
    subst h1 h2
    rw [inputMoved_arrive s n]
    simp only [upcoming, hq]
    rfl

/-- A read takes at most one byte, from the front of the input. -/
theorem State.memRead_moved (s : State) (a : Word) : ∃ k taken, InputMoved k taken s (s.memRead a).2 := by
  by_cases ha : a = Config.kbsrAddr
  · subst ha
    rw [State.memRead_kbsr]
    cases h : s.arrive.inq with
    | nil => exact ⟨1, [], s.kbsrPoll_moved.1 h⟩
    | cons b rest => exact ⟨1, [b], s.kbsrPoll_moved.2 b rest h⟩
  · rw [State.memRead_plain ha]
    exact ⟨0, [], inputMoved_refl s⟩

/-! ### What the keyboard and reads do not look at -/

/-- A state with other registers, `pc`, flag, output and hold: nothing the keyboard or a read of memory looks at. -/
def State.withCore (s : State) (regs : RegFile) (pc : Word) (cond : Cond) (outq : List Byte) (hold : Option Hold) : State :=
  { s with regs := regs, pc := pc, cond := cond, outq := outq, hold := hold }

theorem State.arrive_withCore (s : State) (rs : RegFile) (p : Word) (c : Cond) (o : List Byte) (h : Option Hold) :
    (s.withCore rs p c o h).arrive = s.arrive.withCore rs p c o h := by
  obtain ⟨regs, pc, cond, status, fault, mem, inq, outq, hold, arrivals, later⟩ := s
  cases arrivals with
  | nil => cases later <;> rfl
  | cons bs rest => rfl

theorem State.awaitByte_withCore (n : Nat) (s : State) (rs : RegFile) (p : Word) (c : Cond) (o : List Byte)
    (h : Option Hold) : State.awaitByte n (s.withCore rs p c o h) = (State.awaitByte n s).withCore rs p c o h := by
  induction n generalizing s with
  | zero => rfl
  | succ n ih =>
    simp only [State.awaitByte, State.arrive_withCore, ih]
    rw [show (s.withCore rs p c o h).kbdPeek = s.kbdPeek from rfl]
    split <;> rfl

theorem State.kbdRead_withCore (s : State) (rs : RegFile) (p : Word) (c : Cond) (o : List Byte) (h : Option Hold) :
    (s.withCore rs p c o h).kbdRead = (s.kbdRead.1, s.kbdRead.2.withCore rs p c o h) := by
  unfold State.kbdRead
  rw [show (s.withCore rs p c o h).arrivals = s.arrivals from rfl, State.awaitByte_withCore]
  generalize State.awaitByte _ s = t
  obtain ⟨regs, pc, cond, status, fault, mem, inq, outq, hold, arrivals, later⟩ := t
  cases inq <;> rfl

theorem State.memRead_withCore (s : State) (a : Word) (rs : RegFile) (p : Word) (c : Cond) (o : List Byte)
    (h : Option Hold) :
    (s.withCore rs p c o h).memRead a = ((s.memRead a).1, (s.memRead a).2.withCore rs p c o h) := by
  by_cases ha : a = Config.kbsrAddr
  · subst ha
    have e : (s.withCore rs p c o h).kbsrPoll = s.kbsrPoll.withCore rs p c o h := by
      simp only [State.kbsrPoll, State.arrive_withCore, State.kbdRead_withCore]
      rw [show (s.arrive.withCore rs p c o h).kbdPeek = s.arrive.kbdPeek from rfl]
      cases s.arrive.kbdPeek with
      | false => rfl
      | true =>
        obtain ⟨b, t⟩ := s.arrive.kbdRead
        cases b <;> rfl
    rw [State.memRead_kbsr, State.memRead_kbsr, e]
    rfl
  · rw [State.memRead_plain ha, State.memRead_plain ha]
    rfl

end Sys2Proof.Machine
end

