-- ==== Sys2Proof/Laws/Strings.lean ====
section
/-! SUPPORT. The string loop: all it can do, when it ends, and what it does not look at. -/

namespace Sys2Proof.Machine

open Sys2Proof.Safety

/-- All a run of the loop can do: end as the loop ends, or use up its fuel on nonzero words. -/
theorem stringLoop_cases (f : Word → List Byte) (fuel : Nat) (a : Word) (s : State) :
    (∃ t, stringLoop f fuel a s = (t, none) ∧ Prints f a s t) ∨
    (∃ b t, stringLoop f fuel a s = (t, some b) ∧ PrintsOn f fuel a s b t) := by
  induction fuel generalizing a s with
  | zero => exact .inr ⟨a, s, rfl, .here⟩
  | succ n ih =>
    simp only [stringLoop]
    by_cases hz : (s.memRead a).1 = 0
    · rw [if_pos hz]
      exact .inl ⟨_, rfl, .stop hz⟩
    · rw [if_neg hz]
      rcases ih (a + 1) ((s.memRead a).2.outBytes (f (s.memRead a).1)) with ⟨t, h, hp⟩ | ⟨b, t, h, hp⟩
      · exact .inl ⟨t, h, .more hz hp⟩
      · exact .inr ⟨b, t, h, .more hz hp⟩

/-- What one word printed leaves alone. -/
theorem printed_eq (f : Word → List Byte) (s : State) (a : Word) :
    (s.memRead a).2.outBytes (f (s.memRead a).1) =
      { s with mem := (s.memRead a).2.mem, inq := (s.memRead a).2.inq, arrivals := (s.memRead a).2.arrivals,
               later := (s.memRead a).2.later, outq := s.outq ++ f (s.memRead a).1 } := by
  conv => lhs; rw [State.outBytes, s.memRead_eq a]

/-- What a loop that ends leaves alone: everything but memory, input and output. -/
theorem prints_frame {f : Word → List Byte} {a : Word} {s t : State} (h : Prints f a s t) :
    t = { s with mem := t.mem, inq := t.inq, arrivals := t.arrivals, later := t.later, outq := t.outq } := by
  induction h with
  | @stop a s hz => rw [s.memRead_eq a]
  | @more a s t hz _ ih => rw [ih, printed_eq]

/-- What a loop on its way leaves alone. -/
theorem printsOn_frame {f : Word → List Byte} {n : Nat} {a b : Word} {s t : State} (h : PrintsOn f n a s b t) :
    t = { s with mem := t.mem, inq := t.inq, arrivals := t.arrivals, later := t.later, outq := t.outq } := by
  induction h with
  | here => rfl
  | @more n a b s t hz _ ih => rw [ih, printed_eq]

/-- The loop keeps the canonical form of memory. -/
theorem prints_wf {f : Word → List Byte} {a : Word} {s t : State} (h : Prints f a s t) (hw : s.mem.wf = true) :
    t.mem.wf = true := by
  induction h with
  | stop hz => exact State.memRead_wf hw _
  | more hz _ ih => exact ih (State.memRead_wf hw _)

theorem printsOn_wf {f : Word → List Byte} {n : Nat} {a b : Word} {s t : State} (h : PrintsOn f n a s b t)
    (hw : s.mem.wf = true) : t.mem.wf = true := by
  induction h with
  | here => exact hw
  | more hz _ ih => exact ih (State.memRead_wf hw _)

/-- A loop on its way goes on from where it is. -/
theorem prints_of_printsOn {f : Word → List Byte} {n : Nat} {a b : Word} {s m t : State} (h : PrintsOn f n a s b m)
    (h' : Prints f b m t) : Prints f a s t := by
  induction h with
  | here => exact h'
  | more hz _ ih => exact .more hz (ih h')

/-- A loop that ends, ends also from any point on its way. -/
theorem prints_from_printsOn {f : Word → List Byte} {n : Nat} {a b : Word} {s m t : State} (h : PrintsOn f n a s b m)
    (h' : Prints f a s t) : Prints f b m t := by
  induction h with
  | here => exact h'
  | more hz _ ih =>
    cases h' with
    | stop hz' => exact absurd hz' hz
    | more _ h'' => exact ih h''

/-- The bytes left after a read of KBSR that does not give zero, when nothing comes after the schedule: one less. -/
theorem inputLeft_kbsr {s : State} (h : (s.memRead Config.kbsrAddr).1 ≠ 0) (hw : s.mem.wf = true) (hl : s.later = .nothing) :
    (s.memRead Config.kbsrAddr).2.inputLeft + 1 = s.inputLeft ∧ (s.memRead Config.kbsrAddr).2.later = .nothing := by
  rw [State.memRead_kbsr] at h ⊢
  have ha : s.arrive.inputLeft = s.inputLeft ∧ s.arrive.later = .nothing := by
    unfold State.arrive State.inputLeft
    cases h : s.arrivals <;> simp [hl, h, Nat.add_assoc]
  rcases s.kbsrPoll_cases with ⟨-, e⟩ | ⟨b, rest, hq, e⟩
  · rw [e] at h
    have hwa : s.arrive.mem.wf = true := by rw [onlyInput_arrive s]; exact hw
    exact absurd (by rw [State.cell_setCell hwa]; simp) h
  · rw [e]
    refine ⟨?_, ha.2⟩
    rw [← ha.1]
    unfold State.inputLeft
    rw [hq]
    simp only [State.setCell_inq, State.setCell_arrivals, List.length_cons]
    omega

/-- With nothing after the schedule, fuel for the distance to 0xFE00 and a whole cycle of addresses for each input byte left is
enough: at 0xFE00 the loop ends or takes a byte, anywhere else it comes nearer to 0xFE00 (43_trap.md R160). -/
theorem stringLoop_ends (f : Word → List Byte) {fuel : Nat} {a : Word} {s : State} (hw : s.mem.wf = true)
    (hl : s.later = .nothing) (hf : (Config.kbsrAddr - a).toNat + 65536 * s.inputLeft < fuel) :
    ∃ t, stringLoop f fuel a s = (t, none) := by
  induction fuel generalizing a s with
  | zero => omega
  | succ n ih =>
    simp only [stringLoop]
    by_cases hz : (s.memRead a).1 = 0
    · exact ⟨_, if_pos hz⟩
    · rw [if_neg hz]
      by_cases ha : a = Config.kbsrAddr
      · subst ha
        obtain ⟨hi, hn⟩ := inputLeft_kbsr hz hw hl
        refine ih (s := (s.memRead Config.kbsrAddr).2.outBytes _) (State.memRead_wf hw _) hn ?_
        have hd : (Config.kbsrAddr - (Config.kbsrAddr + 1)).toNat = 65535 := by decide
        rw [hd, show ∀ bs, ((s.memRead Config.kbsrAddr).2.outBytes bs).inputLeft = (s.memRead Config.kbsrAddr).2.inputLeft
          from fun _ => rfl]
        omega
      · rw [State.memRead_plain ha]
        refine ih (s := s.outBytes _) hw hl ?_
        have hd : (Config.kbsrAddr - (a + 1)).toNat + 1 = (Config.kbsrAddr - a).toNat := by
          have : Config.kbsrAddr = 0xFE00#16 := rfl
          rw [this] at ha ⊢
          bv_omega
        rw [show ∀ bs, (s.outBytes bs).inputLeft = s.inputLeft from fun _ => rfl]
        omega

/-- All a step of a string service can do: end as its loop ends, or be left in progress with its fuel used up. -/
theorem State.stringService_cases (s : State) (f : Word → List Byte) (held : Word → Hold) (a : Word) :
    Prints f a s (s.stringService f held a) ∨
    (∃ b m, PrintsOn f s.stringFuel a s b m ∧ s.stringService f held a = { m with hold := some (held b) }) := by
  unfold State.stringService
  rcases stringLoop_cases f s.stringFuel a s with ⟨t, h, hp⟩ | ⟨b, t, h, hp⟩ <;> rw [h]
  · exact .inl hp
  · exact .inr ⟨b, t, hp, rfl⟩

/-- The same as the term of the statements. -/
theorem State.stringService_step (s : State) (f : Word → List Byte) (held : Word → Hold) (a : Word) :
    StringStep f held a s (s.stringService f held a) := by
  rcases s.stringService_cases f held a with h | ⟨b, m, h, e⟩
  · exact .inl h
  · refine .inr ⟨_, b, m, ?_, h, e⟩
    unfold State.stringFuel
    omega

/-- With nothing after the schedule a string service ends in its step. -/
theorem State.stringService_ends {s : State} (hw : s.mem.wf = true) (hl : s.later = .nothing) (f : Word → List Byte)
    (held : Word → Hold) (a : Word) : Prints f a s (s.stringService f held a) := by
  obtain ⟨t, ht⟩ := stringLoop_ends f (fuel := s.stringFuel) (a := a) hw hl (by
    have := (Config.kbsrAddr - a).isLt
    unfold State.stringFuel
    omega)
  rcases stringLoop_cases f s.stringFuel a s with ⟨u, h, hp⟩ | ⟨b, u, h, -⟩
  · unfold State.stringService
    rw [h]
    exact hp
  · rw [ht] at h
    cases h

/-- What a step of a string service leaves alone: everything but memory, input, output and the hold. -/
theorem State.stringService_frame (s : State) (f : Word → List Byte) (held : Word → Hold) (a : Word) :
    s.stringService f held a =
      { s with mem := (s.stringService f held a).mem, inq := (s.stringService f held a).inq,
               arrivals := (s.stringService f held a).arrivals, later := (s.stringService f held a).later,
               outq := (s.stringService f held a).outq, hold := (s.stringService f held a).hold } ∧
    ((s.stringService f held a).hold = s.hold ∨ ∃ b, (s.stringService f held a).hold = some (held b)) := by
  rcases s.stringService_cases f held a with h | ⟨b, m, h, e⟩
  · have hf := prints_frame h
    exact ⟨by rw [hf], .inl (by rw [hf])⟩
  · rw [e]
    exact ⟨by rw [printsOn_frame h], .inr ⟨b, rfl⟩⟩

/-- A step of a string service keeps the canonical form of memory. -/
theorem State.stringService_wf {s : State} (hw : s.mem.wf = true) (f : Word → List Byte) (held : Word → Hold) (a : Word) :
    (s.stringService f held a).mem.wf = true := by
  rcases s.stringService_cases f held a with h | ⟨b, m, h, e⟩
  · exact prints_wf h hw
  · rw [e]
    exact printsOn_wf (t := m) h hw

/-- The loop looks at no register, no flag and no output. -/
theorem stringLoop_withCore (f : Word → List Byte) (fuel : Nat) (a : Word) (s : State) (rs : RegFile) (p : Word) (c : Cond)
    (o : List Byte) (h : Option Hold) :
    ∃ bs, (stringLoop f fuel a s).1.outq = s.outq ++ bs ∧
      stringLoop f fuel a (s.withCore rs p c o h) =
        ((stringLoop f fuel a s).1.withCore rs p c (o ++ bs) h, (stringLoop f fuel a s).2) := by
  induction fuel generalizing a s o with
  | zero => exact ⟨[], by simp [stringLoop], by simp [stringLoop]⟩
  | succ n ih =>
    simp only [stringLoop, State.memRead_withCore]
    by_cases hz : (s.memRead a).1 = 0
    · exact ⟨[], by simp [hz], by simp [hz]⟩
    · obtain ⟨bs, h1, h2⟩ := ih (a + 1) ((s.memRead a).2.outBytes (f (s.memRead a).1)) (o ++ f (s.memRead a).1)
      refine ⟨f (s.memRead a).1 ++ bs, ?_, ?_⟩
      · rw [if_neg hz, h1]
        simp
      · rw [if_neg hz, if_neg hz, ← List.append_assoc, ← h2]
        rfl

end Sys2Proof.Machine
end

