-- ==== Sys2Proof/Laws/Step.lean ====
section
/-! SUPPORT. The trap services, the router and the step: everything each of them can do. -/

namespace Sys2Proof.Machine

open Sys2Proof.Safety

/-- GETC's service: it takes the first byte within its wait, or is held. -/
theorem State.getcService_cases (s : State) :
    (∃ b t k, s.getcService = t.finishGetc b ∧ OnlyInput s t ∧ k ≤ waits s ∧ InputMoved k [b] s t ∧
      ∃ rest, upcoming s (waits s) = b :: rest) ∨
    (∃ t, s.getcService = { t with hold := some .getc } ∧ OnlyInput s t ∧ InputMoved (waits s) [] s t ∧
      upcoming s (waits s) = []) := by
  rcases s.kbdRead_cases with ⟨b, t, k, hr, h⟩ | ⟨t, hr, h⟩
  · exact .inl ⟨b, t, k, by simp [State.getcService, hr], h⟩
  · exact .inr ⟨t, by simp [State.getcService, hr], h⟩

/-- IN's read after its prompt: it takes and echoes the first byte within its wait, or is held. -/
theorem State.inRead_cases (s : State) :
    (∃ b t k, s.inRead = t.finishIn b ∧ OnlyInput s t ∧ k ≤ waits s ∧ InputMoved k [b] s t ∧
      ∃ rest, upcoming s (waits s) = b :: rest) ∨
    (∃ t, s.inRead = { t with hold := some .inp } ∧ OnlyInput s t ∧ InputMoved (waits s) [] s t ∧
      upcoming s (waits s) = []) := by
  rcases s.kbdRead_cases with ⟨b, t, k, hr, h⟩ | ⟨t, hr, h⟩
  · exact .inl ⟨b, t, k, by simp [State.inRead, hr], h⟩
  · exact .inr ⟨t, by simp [State.inRead, hr], h⟩

/-- The router by vector: one of the six services, or the fault. -/
theorem State.route_cases (s : State) (v : BitVec 8) (ir : Word) :
    (v = 0x20 ∧ s.route v ir = s.getcService) ∨ (v = 0x21 ∧ s.route v ir = s.outService) ∨
    (v = 0x22 ∧ s.route v ir = s.putsService (s.reg .r0)) ∨ (v = 0x23 ∧ s.route v ir = s.inService) ∨
    (v = 0x24 ∧ s.route v ir = s.putspService (s.reg .r0)) ∨ (v = 0x25 ∧ s.route v ir = s.haltService) ∨
    (isServiceVector v = false ∧ s.route v ir = s.raiseFault .badTrapVector ir) := by
  unfold State.route
  by_cases h0 : v = 0x20
  · simp [h0]
  by_cases h1 : v = 0x21
  · simp [h1]
  by_cases h2 : v = 0x22
  · simp [h2]
  by_cases h3 : v = 0x23
  · simp [h3]
  by_cases h4 : v = 0x24
  · simp [h4]
  by_cases h5 : v = 0x25
  · simp [h5]
  rw [if_neg h0, if_neg h1, if_neg h2, if_neg h3, if_neg h4, if_neg h5]
  refine .inr (.inr (.inr (.inr (.inr (.inr ⟨?_, rfl⟩)))))
  simp only [isServiceVector, decide_eq_false_iff_not]
  bv_omega

/-- All a step that answers a next state can be: from a running core, a service in progress going on, or the dispatch of the
fetched word. -/
theorem step_cases {s t : State} (h : step s = .next t) :
    s.status = .running ∧
    ((∃ k, s.hold = some k ∧ t = s.resume k) ∨ (s.hold = none ∧ exec (decode s.fetch.1) s.fetch.2 = .next t)) := by
  unfold step at h
  split at h
  · cases h
  · cases h
  · rename_i hs
    split at h
    · rename_i k hk
      cases h
      exact ⟨hs, .inl ⟨k, hk, rfl⟩⟩
    · rename_i hk
      exact ⟨hs, .inr ⟨hk, h⟩⟩

end Sys2Proof.Machine
end

