-- ==== Sys2Proof/Laws/Exec.lean ====
section
/-! SUPPORT. The one inversion of `exec`: the five shapes a next state can have. Every rule about all instructions is derived
from it instead of unfolding the meanings again. -/

namespace Sys2Proof.Machine

open Sys2Proof.Safety

/-- Reads touch memory and input alone. -/
theorem afterReads_eq {s m : State} (h : AfterReads s m) :
    m = { s with mem := m.mem, inq := m.inq, arrivals := m.arrivals, later := m.later } := by
  induction h with
  | none => rfl
  | @read m a _ ih => rw [m.memRead_eq a, ih]

/-- Reads keep the canonical form of memory. -/
theorem afterReads_wf {s m : State} (h : AfterReads s m) (hw : s.mem.wf = true) : m.mem.wf = true := by
  induction h with
  | none => exact hw
  | read a _ ih => exact State.memRead_wf ih a

/-- Reads take bytes only from the front of the input. -/
theorem afterReads_moved {s m : State} (h : AfterReads s m) : ∃ k taken, InputMoved k taken s m := by
  induction h with
  | none => exact ⟨0, [], inputMoved_refl s⟩
  | @read m a _ ih =>
    obtain ⟨j, xs, hx⟩ := ih
    obtain ⟨k, ys, hy⟩ := m.memRead_moved a
    exact ⟨j + k, xs ++ ys, inputMoved_trans hx hy⟩

/-- The vector of an instruction that goes through the trap router. -/
def trapVector : Instr → Option (BitVec 8)
  | .trap _ v => some v
  | .getc _ => some 0x20
  | .out _ => some 0x21
  | .puts _ => some 0x22
  | .inp _ => some 0x23
  | .putsp _ => some 0x24
  | .halt _ => some 0x25
  | .addR _ _ _ _ => none
  | .addI _ _ _ => none
  | .andR _ _ _ _ => none
  | .andI _ _ _ => none
  | .not _ _ _ => none
  | .ld _ _ => none
  | .ldi _ _ => none
  | .lea _ _ => none
  | .st _ _ => none
  | .sti _ _ => none
  | .ldr _ _ _ => none
  | .str _ _ _ => none
  | .br _ _ => none
  | .jmp _ _ _ => none
  | .jsr _ => none
  | .jsrr _ _ _ => none
  | .rti _ => none
  | .res _ => none

/-- The control transfers other than TRAP. -/
def isControl : Instr → Bool
  | .br _ _ => true
  | .jmp _ _ _ => true
  | .jsr _ => true
  | .jsrr _ _ _ => true
  | .addR _ _ _ _ => false
  | .addI _ _ _ => false
  | .andR _ _ _ _ => false
  | .andI _ _ _ => false
  | .not _ _ _ => false
  | .ld _ _ => false
  | .ldi _ _ => false
  | .lea _ _ => false
  | .st _ _ => false
  | .sti _ _ => false
  | .ldr _ _ _ => false
  | .str _ _ _ => false
  | .trap _ _ => false
  | .getc _ => false
  | .out _ => false
  | .puts _ => false
  | .inp _ => false
  | .putsp _ => false
  | .halt _ => false
  | .rti _ => false
  | .res _ => false

/-- All `exec` can do: a result register with its flag after some reads; a store after some reads; a control transfer; the link
and the trap router; or the reserved-opcode fault. It always answers a next state. -/
theorem exec_cases (i : Instr) (s : State) :
    (∃ m dr v, AfterReads s m ∧ writesRegs i = [dr] ∧ writesFlag i = true ∧ isControl i = false ∧ trapVector i = none ∧
      isStore i = false ∧ (readsMemory i = false → m = s) ∧ exec i s = .next (m.result dr v)) ∨
    (∃ m ea v, AfterReads s m ∧ isStore i = true ∧ isControl i = false ∧ trapVector i = none ∧
      exec i s = .next (m.memWrite ea v)) ∨
    (∃ p, isControl i = true ∧ trapVector i = none ∧
      (exec i s = .next (s.setPc p) ∨ (writesRegs i = [.r7] ∧ exec i s = .next (s.link.setPc p)))) ∨
    (∃ v, trapVector i = some v ∧ exec i s = .next (s.link.route v (encode i))) ∨
    (∃ u, (i = .rti u ∨ i = .res u) ∧ exec i s = .next (s.raiseFault .reservedOpcode (encode i))) := by
  cases i
  case trap u v => exact .inr (.inr (.inr (.inl ⟨v, rfl, rfl⟩)))
  case getc u => exact .inr (.inr (.inr (.inl ⟨0x20, rfl, rfl⟩)))
  case out u => exact .inr (.inr (.inr (.inl ⟨0x21, rfl, rfl⟩)))
  case puts u => exact .inr (.inr (.inr (.inl ⟨0x22, rfl, rfl⟩)))
  case inp u => exact .inr (.inr (.inr (.inl ⟨0x23, rfl, rfl⟩)))
  case putsp u => exact .inr (.inr (.inr (.inl ⟨0x24, rfl, rfl⟩)))
  case halt u => exact .inr (.inr (.inr (.inl ⟨0x25, rfl, rfl⟩)))
  case rti u => exact .inr (.inr (.inr (.inr ⟨u, .inl rfl, rfl⟩)))
  case res u => exact .inr (.inr (.inr (.inr ⟨u, .inr rfl, rfl⟩)))
  case br nzp off9 =>
    refine .inr (.inr (.inl ⟨if brTaken nzp s.cond then s.pcRel9 off9 else s.pc, rfl, rfl, .inl ?_⟩))
    simp only [exec, execBr]
    split <;> rfl
  case jmp a b c => exact .inr (.inr (.inl ⟨_, rfl, rfl, .inl rfl⟩))
  case jsr off11 => exact .inr (.inr (.inl ⟨_, rfl, rfl, .inr ⟨rfl, rfl⟩⟩))
  case jsrr a b c => exact .inr (.inr (.inl ⟨_, rfl, rfl, .inr ⟨rfl, rfl⟩⟩))
  case st sr off9 => exact .inr (.inl ⟨_, _, _, .none, rfl, rfl, rfl, rfl⟩)
  case str sr b off6 => exact .inr (.inl ⟨_, _, _, .none, rfl, rfl, rfl, rfl⟩)
  case sti sr off9 => exact .inr (.inl ⟨_, _, _, .read _ .none, rfl, rfl, rfl, rfl⟩)
  case ldi dr off9 => exact .inl ⟨_, _, _, .read _ (.read _ .none), rfl, rfl, rfl, rfl, rfl, nofun, rfl⟩
  case ld dr off9 => exact .inl ⟨_, _, _, .read _ .none, rfl, rfl, rfl, rfl, rfl, nofun, rfl⟩
  case ldr dr b off6 => exact .inl ⟨_, _, _, .read _ .none, rfl, rfl, rfl, rfl, rfl, nofun, rfl⟩
  all_goals exact .inl ⟨_, _, _, .none, rfl, rfl, rfl, rfl, rfl, fun _ => rfl, rfl⟩

end Sys2Proof.Machine
end

