-- ==== Sys2Proof/Laws/PerInstr.lean ====
section
/-! SUPPORT. Facts about every instruction as syntax, one lemma per constructor. Family Opcode: bits 15:12 of an instruction's
word are its opcode of the table of 30_encoding.md R86. -/

namespace Sys2Proof.Laws.Opcode

open Sys2Proof.Safety

/-- The opcode column of the table of 30_encoding.md R86. -/
def opcode : Instr → Nat
  | .addR _ _ _ _ => 1
  | .addI _ _ _ => 1
  | .andR _ _ _ _ => 5
  | .andI _ _ _ => 5
  | .not _ _ _ => 9
  | .ld _ _ => 2
  | .ldi _ _ => 10
  | .lea _ _ => 14
  | .st _ _ => 3
  | .sti _ _ => 11
  | .ldr _ _ _ => 6
  | .str _ _ _ => 7
  | .br _ _ => 0
  | .jmp _ _ _ => 12
  | .jsr _ => 4
  | .jsrr _ _ _ => 4
  | .trap _ _ => 15
  | .getc _ => 15
  | .out _ => 15
  | .puts _ => 15
  | .inp _ => 15
  | .putsp _ => 15
  | .halt _ => 15
  | .rti _ => 8
  | .res _ => 13

/-- Bits 15:12 of the word are the opcode. -/
def Statement (i : Instr) : Prop := bits (encode i) 15 12 = opcode i

theorem addR (dr sr1 : Reg) (unread : BitVec 2) (sr2 : Reg) : Statement (.addR dr sr1 unread sr2) := by
  have hn := encode_toNat (.addR dr sr1 unread sr2)
  have h1 := regNum_lt dr
  have h2 := regNum_lt sr1
  have h3 := regNum_lt sr2
  have h4 := unread.isLt
  simp only [Statement, bits, hn, encodeNum, opcode]
  omega

theorem addI (dr sr1 : Reg) (imm5 : BitVec 5) : Statement (.addI dr sr1 imm5) := by
  have hn := encode_toNat (.addI dr sr1 imm5)
  have h1 := regNum_lt dr
  have h2 := regNum_lt sr1
  have h3 := imm5.isLt
  simp only [Statement, bits, hn, encodeNum, opcode]
  omega

theorem andR (dr sr1 : Reg) (unread : BitVec 2) (sr2 : Reg) : Statement (.andR dr sr1 unread sr2) := by
  have hn := encode_toNat (.andR dr sr1 unread sr2)
  have h1 := regNum_lt dr
  have h2 := regNum_lt sr1
  have h3 := regNum_lt sr2
  have h4 := unread.isLt
  simp only [Statement, bits, hn, encodeNum, opcode]
  omega

theorem andI (dr sr1 : Reg) (imm5 : BitVec 5) : Statement (.andI dr sr1 imm5) := by
  have hn := encode_toNat (.andI dr sr1 imm5)
  have h1 := regNum_lt dr
  have h2 := regNum_lt sr1
  have h3 := imm5.isLt
  simp only [Statement, bits, hn, encodeNum, opcode]
  omega

theorem not (dr sr1 : Reg) (unread : BitVec 6) : Statement (.not dr sr1 unread) := by
  have hn := encode_toNat (.not dr sr1 unread)
  have h1 := regNum_lt dr
  have h2 := regNum_lt sr1
  have h3 := unread.isLt
  simp only [Statement, bits, hn, encodeNum, opcode]
  omega

theorem ld (dr : Reg) (off9 : BitVec 9) : Statement (.ld dr off9) := by
  have hn := encode_toNat (.ld dr off9)
  have h1 := regNum_lt dr
  have h2 := off9.isLt
  simp only [Statement, bits, hn, encodeNum, opcode]
  omega

theorem ldi (dr : Reg) (off9 : BitVec 9) : Statement (.ldi dr off9) := by
  have hn := encode_toNat (.ldi dr off9)
  have h1 := regNum_lt dr
  have h2 := off9.isLt
  simp only [Statement, bits, hn, encodeNum, opcode]
  omega

theorem lea (dr : Reg) (off9 : BitVec 9) : Statement (.lea dr off9) := by
  have hn := encode_toNat (.lea dr off9)
  have h1 := regNum_lt dr
  have h2 := off9.isLt
  simp only [Statement, bits, hn, encodeNum, opcode]
  omega

theorem st (sr : Reg) (off9 : BitVec 9) : Statement (.st sr off9) := by
  have hn := encode_toNat (.st sr off9)
  have h1 := regNum_lt sr
  have h2 := off9.isLt
  simp only [Statement, bits, hn, encodeNum, opcode]
  omega

theorem sti (sr : Reg) (off9 : BitVec 9) : Statement (.sti sr off9) := by
  have hn := encode_toNat (.sti sr off9)
  have h1 := regNum_lt sr
  have h2 := off9.isLt
  simp only [Statement, bits, hn, encodeNum, opcode]
  omega

theorem ldr (dr baseR : Reg) (off6 : BitVec 6) : Statement (.ldr dr baseR off6) := by
  have hn := encode_toNat (.ldr dr baseR off6)
  have h1 := regNum_lt dr
  have h2 := regNum_lt baseR
  have h3 := off6.isLt
  simp only [Statement, bits, hn, encodeNum, opcode]
  omega

theorem str (sr baseR : Reg) (off6 : BitVec 6) : Statement (.str sr baseR off6) := by
  have hn := encode_toNat (.str sr baseR off6)
  have h1 := regNum_lt sr
  have h2 := regNum_lt baseR
  have h3 := off6.isLt
  simp only [Statement, bits, hn, encodeNum, opcode]
  omega

theorem br (nzp : BitVec 3) (off9 : BitVec 9) : Statement (.br nzp off9) := by
  have hn := encode_toNat (.br nzp off9)
  have h1 := nzp.isLt
  have h2 := off9.isLt
  simp only [Statement, bits, hn, encodeNum, opcode]
  omega

theorem jmp (unreadHi : BitVec 3) (baseR : Reg) (unreadLo : BitVec 6) : Statement (.jmp unreadHi baseR unreadLo) := by
  have hn := encode_toNat (.jmp unreadHi baseR unreadLo)
  have h1 := regNum_lt baseR
  have h2 := unreadHi.isLt
  have h3 := unreadLo.isLt
  simp only [Statement, bits, hn, encodeNum, opcode]
  omega

theorem jsr (off11 : BitVec 11) : Statement (.jsr off11) := by
  have hn := encode_toNat (.jsr off11)
  have h1 := off11.isLt
  simp only [Statement, bits, hn, encodeNum, opcode]
  omega

theorem jsrr (unreadHi : BitVec 2) (baseR : Reg) (unreadLo : BitVec 6) : Statement (.jsrr unreadHi baseR unreadLo) := by
  have hn := encode_toNat (.jsrr unreadHi baseR unreadLo)
  have h1 := regNum_lt baseR
  have h2 := unreadHi.isLt
  have h3 := unreadLo.isLt
  simp only [Statement, bits, hn, encodeNum, opcode]
  omega

theorem trap (unread : BitVec 4) (vect8 : BitVec 8) : Statement (.trap unread vect8) := by
  have hn := encode_toNat (.trap unread vect8)
  have h1 := unread.isLt
  have h2 := vect8.isLt
  simp only [Statement, bits, hn, encodeNum, opcode]
  omega

theorem getc (unread : BitVec 4) : Statement (.getc unread) := by
  have hn := encode_toNat (.getc unread)
  have h1 := unread.isLt
  simp only [Statement, bits, hn, encodeNum, opcode]
  omega

theorem out (unread : BitVec 4) : Statement (.out unread) := by
  have hn := encode_toNat (.out unread)
  have h1 := unread.isLt
  simp only [Statement, bits, hn, encodeNum, opcode]
  omega

theorem puts (unread : BitVec 4) : Statement (.puts unread) := by
  have hn := encode_toNat (.puts unread)
  have h1 := unread.isLt
  simp only [Statement, bits, hn, encodeNum, opcode]
  omega

theorem inp (unread : BitVec 4) : Statement (.inp unread) := by
  have hn := encode_toNat (.inp unread)
  have h1 := unread.isLt
  simp only [Statement, bits, hn, encodeNum, opcode]
  omega

theorem putsp (unread : BitVec 4) : Statement (.putsp unread) := by
  have hn := encode_toNat (.putsp unread)
  have h1 := unread.isLt
  simp only [Statement, bits, hn, encodeNum, opcode]
  omega

theorem halt (unread : BitVec 4) : Statement (.halt unread) := by
  have hn := encode_toNat (.halt unread)
  have h1 := unread.isLt
  simp only [Statement, bits, hn, encodeNum, opcode]
  omega

theorem rti (unread : BitVec 12) : Statement (.rti unread) := by
  have hn := encode_toNat (.rti unread)
  have h1 := unread.isLt
  simp only [Statement, bits, hn, encodeNum, opcode]
  omega

theorem res (unread : BitVec 12) : Statement (.res unread) := by
  have hn := encode_toNat (.res unread)
  have h1 := unread.isLt
  simp only [Statement, bits, hn, encodeNum, opcode]
  omega

end Sys2Proof.Laws.Opcode
end

