-- ==== Sys2Proof/Tests/Slice0.lean ====
section
/-! SUPPORT. Tests. Words are written out bit by bit from the table of 30_encoding.md R85; results are those of
95_test_vectors.md (its section stands with each group) or of the rule named. The witnesses at the end meet the hypotheses of
the statements of Certificates/Slice0/Obligations.lean. -/

namespace Sys2Proof.Tests

open Sys2Proof.Machine Sys2Proof.Safety

/-- Eight zero registers. -/
def zeros : RegFile := RegFile.ofFn fun _ => 0

/-- R0 to R7 = 1 to 8. -/
def oneToEight : RegFile := RegFile.ofFn fun i => BitVec.ofNat 16 (i.val + 1)

/-- A running core with `pc`, registers, memory and pending input given, flag Z. -/
def core (pc : Word) (regs : RegFile) (mem : Memory) (inq : List Byte) : State :=
  { State.resetWith regs mem inq [] .nothing with pc := pc }

/-- One step answers a next state, and it has the property. -/
def after (s : State) (p : State → Bool) : Bool :=
  match step s with
  | .next t => p t
  | _ => false

/-- `pc`, a register and the flag of a state. -/
def shows (t : State) (pc : Word) (r : Reg) (v : Word) (c : Cond) : Bool :=
  decide (t.pc = pc) && decide (t.reg r = v) && decide (t.cond = c)

/-! ### Well-formedness refuses what is no word of its own -/

theorem test_trap_with_service_vector_ill_formed :
    (Instr.trap 0 0x20).wellFormed = false ∧ (Instr.trap 0xF 0x25).wellFormed = false := by decide

theorem test_trap_with_other_vector_well_formed :
    (Instr.trap 0 0x1F).wellFormed = true ∧ (Instr.trap 0 0x26).wellFormed = true := by decide

/-! ### Decoding: one word for each constructor, opcode and fields written out -/

theorem test_decode_operate :
    decode 0b0001010000000001 = .addR .r2 .r0 0b00 .r1 ∧ decode 0b0001011101011110 = .addR .r3 .r5 0b11 .r6 ∧
    decode 0b0001010000110000 = .addI .r2 .r0 0b10000 ∧ decode 0b0101011001000010 = .andR .r3 .r1 0b00 .r2 ∧
    decode 0b0101000000101111 = .andI .r0 .r0 0b01111 ∧ decode 0b1001010001111111 = .not .r2 .r1 0b111111 := by decide

theorem test_decode_load_store :
    decode 0b0010010100000000 = .ld .r2 0b100000000 ∧ decode 0b1010010000000011 = .ldi .r2 0b000000011 ∧
    decode 0b0110100010111011 = .ldr .r4 .r2 0b111011 ∧ decode 0b1110000000000010 = .lea .r0 0b000000010 ∧
    decode 0b0011001000000100 = .st .r1 0b000000100 ∧ decode 0b1011001000000001 = .sti .r1 0b000000001 ∧
    decode 0b0111011110100000 = .str .r3 .r6 0b100000 := by decide

theorem test_decode_control :
    decode 0b0000101111111101 = .br 0b101 0b111111101 ∧ decode 0b1100000111000000 = .jmp 0b000 .r7 0b000000 ∧
    decode 0b1100111011111111 = .jmp 0b111 .r3 0b111111 ∧ decode 0b0100110000000000 = .jsr 0b10000000000 ∧
    decode 0b0100011010111111 = .jsrr 0b11 .r2 0b111111 := by decide

theorem test_decode_trap :
    decode 0b1111000000100000 = .getc 0 ∧ decode 0b1111000000100001 = .out 0 ∧ decode 0b1111000000100010 = .puts 0 ∧
    decode 0b1111000000100011 = .inp 0 ∧ decode 0b1111000000100100 = .putsp 0 ∧ decode 0b1111111100100101 = .halt 0b1111 ∧
    decode 0b1111000000011111 = .trap 0 0x1F ∧ decode 0b1111000100100110 = .trap 1 0x26 := by decide

theorem test_decode_reserved : decode 0b1000000000000001 = .rti 1 ∧ decode 0b1101111111111111 = .res 0xFFF := by decide

theorem test_decode_table_word : decodeTableWord 16 0xF025 = some (.halt 0) ∧ decodeTableWord 24 0xF025 = none := by decide

/-! ### Sign extension and the flag rule (section 2.1) -/

theorem test_sext : sext16 (0x0F : BitVec 5) = 0x000F ∧ sext16 (0x10 : BitVec 5) = 0xFFF0 ∧ sext16 (0x1F : BitVec 6) = 0x001F ∧
    sext16 (0x20 : BitVec 6) = 0xFFE0 ∧ sext16 (0x0FF : BitVec 9) = 0x00FF ∧ sext16 (0x100 : BitVec 9) = 0xFF00 ∧
    sext16 (0x3FF : BitVec 11) = 0x03FF ∧ sext16 (0x400 : BitVec 11) = 0xFC00 := by decide

theorem test_setcc : condOf 0x0000 = .z ∧ condOf 0x0001 = .p ∧ condOf 0x7FFF = .p ∧ condOf 0x8000 = .n ∧ condOf 0xFFFF = .n := by
  decide

theorem test_bytes : low8 0x1241 = 0x41 ∧ high8 0x1241 = 0x12 ∧ zext16 0xFF = 0x00FF := by decide

/-! ### Operate instructions (sections 2.2 to 2.4) -/

theorem test_add_wraps_to_zero :
    after (core 0x3000 { zeros with r0 := 0xFFFF, r1 := 1 } [(0x3000, 0x1401)] []) (shows · 0x3001 .r2 0 .z) = true := by decide

theorem test_add_same_register_signed_overflow :
    after (core 0x3000 { zeros with r3 := 0x4001 } [(0x3000, 0x16C3)] []) (shows · 0x3001 .r3 0x8002 .n) = true := by decide

theorem test_add_immediate_minus_sixteen :
    after (core 0x3000 { zeros with r0 := 0x000F } [(0x3000, 0x1430)] []) (shows · 0x3001 .r2 0xFFFF .n) = true := by decide

theorem test_and_register :
    after (core 0x3000 { zeros with r1 := 0x000C, r2 := 0x000A } [(0x3000, 0x5642)] []) (shows · 0x3001 .r3 8 .p) = true := by
  decide

theorem test_and_immediate_is_sign_extended :
    after (core 0x3000 { zeros with r1 := 0xABCD } [(0x3000, 0x5670)] []) (shows · 0x3001 .r3 0xABC0 .n) = true := by decide

theorem test_not_ignores_unread_bits :
    after (core 0x3000 { zeros with r1 := 0x00FF } [(0x3000, 0x9440)] []) (shows · 0x3001 .r2 0xFF00 .n) = true := by decide

/-! ### Loads and LEA (section 2.5) -/

theorem test_ld_itself_across_the_top :
    after (core 0xFFFF zeros [(0xFFFF, 0x21FF)] []) (shows · 0x0000 .r0 0x21FF .p) = true := by decide

theorem test_ldi_zero_data :
    after (core 0x3000 zeros [(0x3000, 0xA403), (0x3004, 0x4000)] []) (shows · 0x3001 .r2 0 .z) = true := by decide

theorem test_ldi_pointer_read_polls :
    after (core 0xFDFF zeros [(0, 0xBB), (0x8000, 0xAA), (0xFDFF, 0xA400)] [0x41]) (fun t =>
      shows t 0xFE00 .r2 0x00AA .p && decide (t.cell 0xFE00 = 0x8000 ∧ t.cell 0xFE02 = 0x41 ∧ t.inq = [])) = true := by decide

theorem test_ldr_negative_offset :
    after (core 0x3000 { zeros with r2 := 0x4005 } [(0x3000, 0x68BB), (0x4000, 1)] []) (shows · 0x3001 .r4 1 .p) = true := by
  decide

theorem test_ldr_kbsr_without_input_keeps_kbdr :
    after (core 0x3000 { zeros with r1 := 0xFE00 } [(0x3000, 0x6040), (0xFE02, 0x1234)] []) (fun t =>
      shows t 0x3001 .r0 0 .z && decide (t.cell 0xFE00 = 0 ∧ t.cell 0xFE02 = 0x1234)) = true := by decide

theorem test_ldr_kbdr_does_not_poll :
    after (core 0x3000 { zeros with r1 := 0xFE02 } [(0x3000, 0x6040), (0xFE02, 0x41)] [0x55]) (fun t =>
      shows t 0x3001 .r0 0x41 .p && decide (t.cell 0xFE00 = 0 ∧ t.inq = [0x55])) = true := by decide

theorem test_lea_sets_flag :
    after (core 0x9000 zeros [(0x9000, 0xE000)] []) (shows · 0x9001 .r0 0x9001 .n) = true := by decide

/-! ### Stores (section 2.6) -/

theorem test_st_keeps_flag :
    after { core 0x3000 { zeros with r1 := 0xAA } [(0x3000, 0x3204)] [] with cond := .n } (fun t =>
      shows t 0x3001 .r1 0xAA .n && decide (t.cell 0x3005 = 0xAA)) = true := by decide

theorem test_sti_through_pointer :
    after (core 0x3001 { zeros with r1 := 0x1234 } [(0x3001, 0xB201), (0x3003, 0x3005)] []) (fun t =>
      decide (t.cell 0x3005 = 0x1234 ∧ t.cell 0x3003 = 0x3005)) = true := by decide

theorem test_str_negative_offset :
    after (core 0x3000 { zeros with r3 := 7, r6 := 0x5000 } [(0x3000, 0x77BF)] []) (fun t =>
      decide (t.cell 0x4FFF = 7 ∧ t.cell 0x5000 = 0)) = true := by decide

theorem test_str_to_kbsr_calls_no_keyboard :
    after (core 0x3000 { zeros with r0 := 0x1234, r1 := 0xFE00 } [(0x3000, 0x7040)] [0x55]) (fun t =>
      decide (t.cell 0xFE00 = 0x1234 ∧ t.inq = [0x55])) = true := by decide

/-! ### Control transfer (sections 2.7 and 2.8; the table of 42_control.md R141) -/

theorem test_br_table :
    [Cond.n, .z, .p].map (fun c => (List.range 8).map fun m => brTaken (BitVec.ofNat 3 m) c) =
      [[false, false, false, false, true, true, true, true], [false, false, true, true, false, false, true, true],
       [false, true, false, true, false, true, false, true]] := by decide

theorem test_br_taken_wraps : after (core 0 zeros [(0, 0x0FFE)] []) (fun t => decide (t.pc = 0xFFFF)) = true := by decide

theorem test_jmp_unread_bits :
    after (core 0x3000 { zeros with r3 := 0x4000 } [(0x3000, 0xCEFF)] []) (shows · 0x4000 .r7 0 .z) = true := by decide

theorem test_jsr_lowest_offset :
    after (core 0x3000 zeros [(0x3000, 0x4C00)] []) (shows · 0x2C01 .r7 0x3001 .z) = true := by decide

theorem test_jsrr_r7_goes_to_the_link :
    after (core 0x3000 { zeros with r7 := 0x5000 } [(0x3000, 0x41C0)] []) (shows · 0x3001 .r7 0x3001 .z) = true := by decide

theorem test_jsrr_base :
    after (core 0x3000 { zeros with r2 := 0x5000 } [(0x3000, 0x4080)] []) (shows · 0x5000 .r7 0x3001 .z) = true := by decide

/-! ### TRAP and the services (section 2.9) -/

theorem test_getc_is_zero_extended :
    after (core 0x3000 zeros [(0x3000, 0xF020)] [0xFF]) (fun t =>
      shows t 0x3001 .r0 0x00FF .p && decide (t.reg .r7 = 0x3001 ∧ t.inq = [] ∧ t.outq = [])) = true := by decide

theorem test_getc_without_input_is_held :
    after (core 0x3000 { zeros with r0 := 9 } [(0x3000, 0xF020)] []) (fun t =>
      shows t 0x3001 .r0 9 .z && decide (t.reg .r7 = 0x3001 ∧ t.status = .running ∧ t.hold = some .getc)) = true := by decide

theorem test_held_getc_takes_the_later_byte :
    after { core 0x3001 { zeros with r0 := 9 } [] [] with hold := some .getc, later := .again [0x42] } (fun t =>
      shows t 0x3001 .r0 0x42 .p && decide (t.hold = none ∧ t.inq = [] ∧ t.outq = [])) = true := by decide

theorem test_out_low_byte :
    after (core 0x3000 { zeros with r0 := 0x1241 } [(0x3000, 0xF021)] []) (fun t =>
      shows t 0x3001 .r0 0x1241 .z && decide (t.outq = [0x41] ∧ t.reg .r7 = 0x3001)) = true := by decide

theorem test_puts_zero_low_byte_goes_on :
    after (core 0x3000 { zeros with r0 := 0x4000 }
      [(0x3000, 0xF022), (0x4000, 0x0148), (0x4001, 0x0100), (0x4002, 0x0069)] [])
      (fun t => shows t 0x3001 .r0 0x4000 .z && decide (t.outq = [0x48, 0x00, 0x69])) = true := by decide

theorem test_puts_across_kbsr_with_input :
    after (core 0x3000 { zeros with r0 := 0xFDFF } [(0x3000, 0xF022), (0xFDFF, 0x41), (0xFE01, 0x42)] [0x55])
      (fun t => decide (t.outq = [0x41, 0x00, 0x42, 0x55] ∧ t.inq = [] ∧ t.cell 0xFE02 = 0x55)) = true := by decide

theorem test_in_reads_after_prompt :
    after (core 0x3000 zeros [(0x3000, 0xF023)] [0x7A]) (fun t =>
      shows t 0x3001 .r0 0x7A .p && decide (t.reg .r7 = 0x3001 ∧ t.inq = [])) = true := by decide

theorem test_in_output (s : State) (h : s.inq = [0x7A]) : s.inService.outq = s.outq ++ Config.inPrompt ++ [0x7A] := by
  have hk := State.kbdRead_pending (s := (s.outBytes Config.inPrompt).outFlush) h
  simp only [State.inService, State.inRead, hk]
  rfl

theorem test_held_in_echoes_without_prompt :
    after { core 0x3001 zeros [] [0x7A] with hold := some .inp } (fun t =>
      shows t 0x3001 .r0 0x7A .p && decide (t.hold = none ∧ t.outq = [0x7A])) = true := by decide

/-- The string of 43_trap.md R154's example, one word already printed. -/
theorem test_puts_in_progress_goes_on :
    after { core 0x3001 { zeros with r0 := 0x3005 } [(0x3005, 0x48), (0x3006, 0x69)] [] with hold := some (.puts 0x3006) }
      (fun t => shows t 0x3001 .r0 0x3005 .z && decide (t.outq = [0x69] ∧ t.hold = none)) = true := by decide

theorem test_putsp_packed :
    after (core 0x3000 { zeros with r0 := 0x4000 } [(0x3000, 0xF024), (0x4000, 0x6548), (0x4001, 0x006C)] [])
      (fun t => decide (t.outq = [0x48, 0x65, 0x6C])) = true := by decide

theorem test_putsp_zero_low_byte :
    after (core 0x3000 { zeros with r0 := 0x4000 } [(0x3000, 0xF024), (0x4000, 0x4100)] [])
      (fun t => decide (t.outq = [0x00, 0x41])) = true := by decide

theorem test_halt_unread_bits :
    after (core 0x3000 oneToEight [(0x3000, 0xFF25)] []) (fun t =>
      shows t 0x3001 .r7 0x3001 .z && decide (t.status = .halted ∧ t.fault = none ∧ t.reg .r6 = 7)) = true := by decide

theorem test_undefined_vectors :
    [0xF000, 0xF01F, 0xF026, 0xF1FF].map (fun w : Word => after (core 0x3000 oneToEight [(0x3000, w)] []) (fun t =>
      shows t 0x3001 .r7 0x3001 .z &&
        decide (t.status = .faulted ∧ t.fault = some { cause := .badTrapVector, addr := 0x3000, ir := w } ∧ t.outq = []))) =
      [true, true, true, true] := by decide

/-! ### Faults, fetch and run states (section 2.10) -/

theorem test_reserved_opcodes :
    [0x8000, 0xDFFF].map (fun w : Word => after (core 0x3000 oneToEight [(0x3000, w)] []) (fun t =>
      shows t 0x3001 .r7 8 .z && decide (t.regs = oneToEight ∧ t.status = .faulted ∧
        t.fault = some { cause := .reservedOpcode, addr := 0x3000, ir := w }))) = [true, true] := by decide

theorem test_fetch_at_kbsr_with_input :
    after (core 0xFE00 zeros [] [0x41]) (fun t => decide (t.pc = 0xFE01 ∧ t.cell 0xFE00 = 0x8000 ∧ t.cell 0xFE02 = 0x41 ∧
      t.inq = [] ∧ t.fault = some { cause := .reservedOpcode, addr := 0xFE00, ir := 0x8000 })) = true := by decide

theorem test_fetch_at_kbsr_without_input :
    after (core 0xFE00 zeros [] []) (fun t => decide (t.pc = 0xFE01 ∧ t.status = .running)) = true := by decide

theorem test_no_step_when_stopped :
    step { core 0x3000 zeros [] [] with status := .halted } = .fault .coreHalted ∧
    step { core 0x3000 zeros [] [] with status := .faulted } = .fault .coreFaulted := ⟨rfl, rfl⟩

/-- The image of 70_reset_and_hazards.md R205, and one cut at the last address. -/
theorem test_loader : loadImage [0x30, 0x00, 0xF0, 0x25] [] = [(0x3000, 0xF025)] ∧
    loadImage [0xFF, 0xFF, 0x00, 0x01, 0x00, 0x02] [] = [(0xFFFF, 1)] := by decide

/-! ### Witnesses: the hypotheses of each statement met by a concrete state and concrete operands -/

/-- A running core at 0x3000 with canonical memory and one pending byte: the state of most witnesses. -/
def sample : State := core 0x3000 oneToEight [(0x3000, 0x1401), (0x3004, 0x4000), (0xFFFF, 1)] [0x41]

/-- The same with no input at all. -/
def silent : State := { sample with inq := [] }

theorem witness_wellFormed_at_both_ends_of_the_vectors :
    (Instr.trap 0xF 0x26).wellFormed = true ∧ (Instr.trap 0 0x1F).wellFormed = true ∧ (Instr.halt 3).wellFormed = true := by
  decide

/-- The premises of MemReadPollsOnlyKbsr, CellWriteThenRead, the load and store statements, PutsFollowsItsLoop and
PutspFollowsItsLoop. -/
theorem witness_canonical_memory : sample.mem.wf = true ∧ State.reset.mem.wf = true ∧ sample.later = .nothing := by decide

theorem witness_reads_clauses : upcoming sample 1 = 0x41 :: [] ∧ upcoming silent 1 = [] ∧ (0xFDFF : Word) ≠ 0xFE00 ∧
    (0xFE01 : Word) ≠ 0xFE00 := by decide

theorem witness_unread_bits : (∃ t, exec (.trap 0xF 0x00) sample = .next t) ∧ (∃ t, exec (.rti 0xFFF) sample = .next t) ∧
    (∃ t, exec (.res 0) sample = .next t) := ⟨⟨_, rfl⟩, ⟨_, rfl⟩, ⟨_, rfl⟩⟩

theorem witness_equal_memories :
    Memory.wf [(0, 1), (65535, 2)] = true ∧ Memory.wf ([] : Memory) = true ∧ Memory.wf [(0, 0)] = false := by decide

/-- 41_load_store.md R129 at A = 0x3001 and 0x3004: pointer cell 0x3006 holds 0x3007. -/
theorem witness_sti_then_ldi :
    let s := core 0x3004 { zeros with r1 := 0xABCD } [(0x3006, 0x3007)] []
    s.mem.wf = true ∧ s.pcRel9 2 ≠ 0xFE00 ∧ s.cell (s.pcRel9 2) = 0x3007 ∧ (0x3007 : Word) ≠ 0xFE00 ∧
    (0x3007 : Word) ≠ 0xFE02 ∧ ∃ t, exec (.sti .r1 2) s = .next t ∧ (t.setPc 0x3005).cell 0x3007 = t.cell 0x3007 ∧
      (t.setPc 0x3005).pcRel9 1 ≠ 0xFE00 ∧ (t.setPc 0x3005).cell ((t.setPc 0x3005).pcRel9 1) = 0x3007 := by
  refine ⟨?_, ?_, ?_, ?_, ?_, _, rfl, ?_⟩ <;> decide

theorem witness_return : ∃ t, exec (.jsr 2) sample = .next t ∧ t.reg .r7 = t.reg .r7 := ⟨_, rfl, rfl⟩

theorem witness_return_jsrr : ∃ t, exec (.jsrr 0 .r2 0) sample = .next t ∧ t.reg .r7 = t.reg .r7 := ⟨_, rfl, rfl⟩

theorem witness_undefined_vectors : ∀ v ∈ [(0x00 : BitVec 8), 0x1F, 0x26, 0xFF], ¬(0x20 ≤ v.toNat ∧ v.toNat ≤ 0x25) := by
  decide

/-- The two clauses of GetcTakesOneByteOrIsHeld and of InPromptsReadsAndEchoes. -/
theorem witness_input : upcoming sample (waits sample) = 0x41 :: [] ∧ upcoming silent (waits silent) = [] ∧
    upcoming { silent with arrivals := [[], [0x42, 0x43]] } (waits { silent with arrivals := [[], [0x42, 0x43]] }) =
      0x42 :: [0x43] ∧
    upcoming { silent with later := .again [0x44] } (waits { silent with later := .again [0x44] }) = 0x44 :: [] := by decide

/-- The free environment shows nothing of what it supplies: the first byte to come is that of its free value. -/
theorem test_free_input (k : Nat) : upcoming { silent with later := .free k } 1 = Config.freeInput k := by
  show [] ++ (Config.freeInput (k + 0) ++ []) = _
  simp

/-- "Hi" at 0x3006 (95_test_vectors.md P3). -/
theorem witness_string :
    let s := core 0x3002 { zeros with r0 := 0x3006 } [(0x3006, 0x48), (0x3007, 0x69)] []
    let ws : List Word := [0x48, 0x69]
    (∀ k (h : k < ws.length), s.cell (s.reg .r0 + BitVec.ofNat 16 k) = ws[k] ∧ ws[k] ≠ 0 ∧
      s.reg .r0 + BitVec.ofNat 16 k ≠ 0xFE00) ∧
    s.cell (s.reg .r0 + BitVec.ofNat 16 ws.length) = 0 ∧ s.reg .r0 + BitVec.ofNat 16 ws.length ≠ 0xFE00 := by decide

theorem witness_reserved : (Instr.rti 5 = .rti 5 ∨ Instr.rti 5 = .res 5) ∧ (Instr.res 5 = .rti 5 ∨ Instr.res 5 = .res 5) := by
  decide

/-- The clauses of HeldReadWaitsForAByte and HeldReadEndsWithTheFirstByte, for both services. -/
theorem witness_held : ∀ h ∈ [Hold.getc, Hold.inp],
    (h = .getc ∨ h = .inp) ∧
    ({ silent with hold := some h } : State).status = .running ∧ ({ silent with hold := some h } : State).hold = some h ∧
    upcoming { silent with hold := some h } (waits { silent with hold := some h }) = [] ∧
    upcoming { sample with hold := some h } (waits { sample with hold := some h }) = 0x41 :: [] := by decide

/-- An input that never comes (the last clause of HeldReadEndsWithTheFirstByte). -/
theorem witness_no_input_ever (n : Nat) : upcoming { silent with hold := some .getc } n = [] := by
  have e : arrivingAt { silent with hold := some .getc } = fun _ => [] := rfl
  simp only [upcoming, e]
  induction n with
  | zero => rfl
  | succ n ih => simpa [List.range_succ] using ih

/-- The premises of StringInProgressGoesOn, and a loop that ends, for both services. -/
theorem witness_string_in_progress :
    (isStringService (fun w => [low8 w]) .puts ∧
      isStringService (fun w => if high8 w = 0 then [low8 w] else [low8 w, high8 w]) .putsp) ∧
    (∀ h ∈ [Hold.puts 0x5000, Hold.putsp 0x5000], ({ sample with hold := some h } : State).status = .running ∧
      ({ sample with hold := some h } : State).hold = some h ∧ ({ sample with hold := some h } : State).mem.wf = true) ∧
    (∀ f : Word → List Byte, ∃ t, Prints f 0x5000 sample t) :=
  ⟨⟨.inl ⟨rfl, rfl⟩, .inr ⟨rfl, rfl⟩⟩, by decide, fun _ => ⟨_, .stop (by decide)⟩⟩

/-! A string without end: every cell holds 1, and a byte is there at every poll. -/

/-- The cells of `n` addresses from `lo` on, each holding 1. -/
def ones (lo n : Nat) : Memory := (List.range' lo n).map fun k => (k, 1)

theorem ones_wf (lo n : Nat) (h : lo + n ≤ 65536) : (ones lo n).wfFrom lo = true := by
  induction n generalizing lo with
  | zero => rfl
  | succ n ih =>
    have e : ones lo (n + 1) = (lo, 1) :: ones (lo + 1) n := rfl
    have hlt : lo < 65536 := by omega
    simp [e, Memory.wfFrom, hlt, ih (lo + 1) (by omega), Config.memUnlisted]

theorem ones_read (lo n a : Nat) (h : lo ≤ a ∧ a < lo + n) : (ones lo n).read a = 1 := by
  induction n generalizing lo with
  | zero => omega
  | succ n ih =>
    have e : ones lo (n + 1) = (lo, 1) :: ones (lo + 1) n := rfl
    rw [e, Memory.read]
    split
    · rfl
    · exact ih (lo + 1) (by omega)

/-- A core that prints for ever. -/
def endless (h : Hold) : State :=
  { core 0x3001 zeros (ones 0 65536) [] with hold := some h, later := .again [0x55] }

/-- No address but 0xFE00 reads as zero, and no byte to come is zero or missing. -/
structure NoEnd (s : State) : Prop where
  wf : s.mem.wf = true
  cells : ∀ a, a ≠ 0xFE00 → s.cell a ≠ 0
  bytes : ∀ b ∈ s.inq, b = 0x55
  never : s.arrivals = [] ∧ s.later = .again [0x55]

theorem noEnd_endless (h : Hold) : NoEnd { endless h with hold := none } where
  wf := ones_wf 0 65536 (by decide)
  cells := fun a _ => by
    have e : ({ endless h with hold := none } : State).cell a = 1 := ones_read 0 65536 a.toNat ⟨by omega, by have := a.isLt; omega⟩
    rw [e]
    decide
  bytes := nofun
  never := ⟨rfl, rfl⟩

theorem noEnd_read {s : State} (h : NoEnd s) (a : Word) : (s.memRead a).1 ≠ 0 ∧ NoEnd (s.memRead a).2 := by
  by_cases ha : a = Config.kbsrAddr
  · subst ha
    have hwa : s.arrive.mem.wf = true := by rw [onlyInput_arrive s]; exact h.wf
    have hca : ∀ c, s.arrive.cell c = s.cell c := fun c => by rw [onlyInput_arrive s]; rfl
    have hq : s.arrive = { s with inq := s.inq ++ [0x55] } := by simp [State.arrive, h.never.1, h.never.2]
    have hb : ∀ b ∈ s.arrive.inq, b = 0x55 := fun b hm => by
      rw [hq] at hm
      rcases List.mem_append.mp hm with hm | hm
      · exact h.bytes b hm
      · simpa using hm
    rw [State.memRead_kbsr]
    rcases s.kbsrPoll_cases with ⟨hn, -⟩ | ⟨b, rest, hi, e⟩
    · rw [hq] at hn
      simp at hn
    · have hb0 : b = 0x55 := hb b (by rw [hi]; exact List.mem_cons_self)
      have hw1 := State.wf_setCell (s := { s.arrive with inq := rest }) hwa Config.kbsrAddr 0x8000
      have hc : ∀ c, s.kbsrPoll.cell c = if c = Config.kbdrAddr then zext16 b
          else if c = Config.kbsrAddr then 0x8000 else s.cell c := fun c => by
        rw [e, State.cell_setCell hw1, State.cell_setCell (s := { s.arrive with inq := rest }) hwa]
        exact if_congr Iff.rfl rfl (if_congr Iff.rfl rfl (hca c))
      refine ⟨?_, ?_, fun c hne => ?_, fun c hm => ?_, ?_⟩
      · have e0 : s.kbsrPoll.cell Config.kbsrAddr = 0x8000 := by rw [hc, if_neg (by decide), if_pos rfl]
        simp only [e0]
        decide
      · simp only [e]
        exact State.wf_setCell hw1 _ _
      · simp only [hc, hb0]
        split
        · decide
        · rw [if_neg (show ¬c = Config.kbsrAddr from hne)]
          exact h.cells c hne
      · rw [e] at hm
        exact hb c (by rw [hi]; exact List.mem_cons_of_mem _ hm)
      · simp only [e, hq]
        exact h.never
  · rw [State.memRead_plain ha]
    exact ⟨h.cells a ha, h⟩

/-- The premises of the second clause of StringEndsExactlyWhenItsLoopDoes: a loop that never ends. -/
theorem witness_endless_string (f : Word → List Byte) (h : Hold) (a : Word) :
    (endless h).status = .running ∧ (endless h).hold = some h ∧ ¬∃ t, Prints f a { endless h with hold := none } t := by
  refine ⟨rfl, rfl, ?_⟩
  rintro ⟨t, ht⟩
  have hn := noEnd_endless h
  generalize ({ endless h with hold := none } : State) = s at ht hn
  induction ht with
  | stop hz => exact (noEnd_read hn _).1 hz
  | more hz _ ih =>
    obtain ⟨wf, cells, bytes, never⟩ := (noEnd_read hn _).2
    exact ih ⟨wf, cells, bytes, never⟩

/-- The premises of StepRunsDecodedInstruction, StepRunsEncodedInstruction and PlacedWordRunsNext. -/
theorem witness_step : sample.status = .running ∧ sample.hold = none ∧ sample.pc ≠ 0xFE00 ∧
    (Instr.addR .r2 .r0 0 .r1).wellFormed = true ∧ sample.cell sample.pc = encode (.addR .r2 .r0 0 .r1) ∧
    sample.mem.wf = true ∧ 0xFFFF < 65536 := by decide

/-- The word placed for the host runs, also when `pc` is 0xFE00. -/
theorem witness_placed_word :
    after (State.reset.withFetchWord 16 0x1021) (shows · 0x3001 .r0 1 .p) = true ∧
    after ((core 0xFE00 zeros [] []).withFetchWord 16 0x1021) (shows · 0x3001 .r0 1 .p) = true := by decide

theorem witness_running_core : sample.status = .running ∧
    ({ sample with status := .halted } : State).status = .halted ∧
    ({ sample with status := .faulted } : State).status = .faulted := by decide

/-- A step of a running core for each clause of PcAfterEachStep, by the word at `pc`. -/
theorem witness_pc_clauses : [0x0402, 0xC1C0, 0x4802, 0x4080, 0x41C0, 0x1401, 0xF025].map (fun w : Word =>
    decide ((core 0x3000 zeros [(0x3000, w)] []).status = .running ∧ (core 0x3000 zeros [(0x3000, w)] []).hold = none) &&
      after (core 0x3000 zeros [(0x3000, w)] []) (fun _ => true)) = [true, true, true, true, true, true, true] := by decide

theorem witness_pc_instructions :
    decode ((core 0x3000 zeros [(0x3000, 0x0402)] []).memRead 0x3000).1 = .br 0b010 2 ∧
    decode ((core 0x3000 zeros [(0x3000, 0xC1C0)] []).memRead 0x3000).1 = .jmp 0 .r7 0 ∧
    decode ((core 0x3000 zeros [(0x3000, 0x4802)] []).memRead 0x3000).1 = .jsr 2 ∧
    decode ((core 0x3000 zeros [(0x3000, 0x41C0)] []).memRead 0x3000).1 = .jsrr 0 .r7 0 ∧
    decode ((core 0x3000 zeros [(0x3000, 0x1401)] []).memRead 0x3000).1 = .addR .r2 .r0 0 .r1 := by decide

/-- A step that stays RUNNING, one that halts, and the three kinds that fault, the vectors at both ends. -/
theorem witness_status_transitions :
    after sample (fun t => decide (t.status = .running)) = true ∧
    [0xF025, 0xFF25].map (fun w : Word =>
      after (core 0x3000 zeros [(0x3000, w)] []) (fun t => decide (t.status = .halted))) = [true, true] ∧
    [0x8000, 0xD000, 0xF01F, 0xF026].map (fun w : Word =>
      after (core 0x3000 zeros [(0x3000, w)] []) (fun t => decide (t.status = .faulted))) = [true, true, true, true] := by
  decide

/-- The premises of RegisterAndFlagWriters, RegistersReadAsListed and FlagReadOnlyByBr. -/
theorem witness_writers : (∃ t, exec (.ldr .r4 .r2 0x3B) sample = .next t) ∧ Reg.r5 ∉ readsRegs (.ldr .r4 .r2 0x3B) ∧
    writesFlag (.ldr .r4 .r2 0x3B) = true ∧ writesFlag (.str .r4 .r2 0x3B) = false ∧
    (∃ t, exec (.str .r4 .r2 0x3B) sample = .next t) ∧ (∀ nzp off9, Instr.ldr .r4 .r2 0x3B ≠ .br nzp off9) :=
  ⟨⟨_, rfl⟩, by decide, rfl, rfl, ⟨_, rfl⟩, fun _ _ h => Instr.noConfusion h⟩

theorem witness_only_stores : sample.mem.wf = true ∧ isStore (.ldr .r0 .r1 0) = false ∧ isStore (.lea .r0 5) = false ∧
    readsMemory (.lea .r0 5) = false ∧ (∃ t, exec (.ldr .r0 .r1 0) sample = .next t) ∧
    ∃ t, exec (.lea .r0 5) sample = .next t := ⟨by decide, rfl, rfl, rfl, ⟨_, rfl⟩, _, rfl⟩

theorem witness_step_answers : ∃ t, step sample = .next t := ⟨_, rfl⟩

/-- A core at 0x3001 with the given word there, F025 in R0 and 0x3003 in R6. -/
def storing (w : Word) : State :=
  core 0x3001 { zeros with r0 := 0xF025, r6 := 0x3003 } [(0x3001, w), (0x3005, 0x3002)] []

/-- The three forms of StoreIsSeenByNextFetch: ST #0, STR through R6 and STI through a pointer cell. -/
theorem witness_store_into_next : [0x3000, 0x71BF, 0xB003].map (fun w : Word => decide ((storing w).mem.wf = true ∧
      (storing w).status = .running ∧ (storing w).hold = none ∧ (storing w).pc ≠ 0xFE00 ∧ (storing w).pc + 1 ≠ 0xFE00)) =
    [true, true, true] := by decide

theorem witness_store_targets :
    (storing 0x3000).cell 0x3001 = encode (.st .r0 0) ∧ ((storing 0x3000).setPc 0x3002).pcRel9 0 = 0x3002 ∧
    (storing 0x71BF).cell 0x3001 = encode (.str .r0 .r6 0x3F) ∧ (storing 0x71BF).baseOff6 .r6 0x3F = 0x3002 ∧
    (storing 0xB003).cell 0x3001 = encode (.sti .r0 3) ∧
    ((storing 0xB003).memRead (((storing 0xB003).setPc 0x3002).pcRel9 3)).1 = 0x3002 := by decide

/-- The clauses of LoaderPlacesImageAtOrigin at their ends: the first cell, the last, the cell below the origin and the cell
after the image; and the last address, where a longer image is cut. -/
theorem witness_loader : Memory.wf [(0x2FFF, 7)] = true ∧ (0xFFFF : Word).toNat = (0xFFFE : Word).toNat + 1 ∧ (0x3000 : Word).toNat = (0x3000 : Word).toNat + 0 ∧
    (0x3001 : Word).toNat = (0x3000 : Word).toNat + 1 ∧ (0x2FFF : Word).toNat < (0x3000 : Word).toNat ∧
    (0x3000 : Word).toNat + [(1 : Word), 2].length ≤ (0x3002 : Word).toNat := by decide

/-- The premises of InvariantHoldsAtReset and EveryStepKeepsInvariant. -/
theorem witness_invariant : Inv sample ∧ ∃ t, step sample = .next t :=
  ⟨⟨by decide, by decide, nofun, fun h => absurd rfl h⟩, _, rfl⟩

end Sys2Proof.Tests
end

section
/-! SUPPORT. Fields and bytes as words (00_scope.md R9, R10), and the two statements about them. -/

namespace Sys2Proof.Machine

open Sys2Proof.Safety

/-- A sign-extended field as a number: the field, with `65536 - 2^n` on top when its top bit is set (00_scope.md R9). -/
theorem toNat_sext16 {n : Nat} (f : BitVec n) (h : n ≤ 16) :
    (sext16 f).toNat = if f.getLsbD (n - 1) then f.toNat + (65536 - 2 ^ n) else f.toNat := by
  rw [sext16, BitVec.toNat_signExtend, BitVec.toNat_setWidth_of_le h, BitVec.msb_eq_getLsbD_last]
  split <;> rfl

/-- The low half of a byte's word is the byte. -/
theorem bits_zext16_low (b : Byte) : bits (zext16 b) 7 0 = b.toNat := by
  rw [bits, toNat_zext16, Nat.pow_zero, Nat.div_one]
  exact Nat.mod_eq_of_lt b.isLt

/-- The high half of a byte's word is zero. -/
theorem bits_zext16_high (b : Byte) : bits (zext16 b) 15 8 = 0 := by
  rw [bits, toNat_zext16, Nat.div_eq_of_lt b.isLt, Nat.zero_mod]

/-- Settles O9, by the number of a sign-extended field and its signed value, at the four widths. -/
theorem signExtensionOfFields : Obligations.SignExtensionOfFields := by
  unfold Obligations.SignExtensionOfFields
  refine ⟨?_, ?_, ?_, ?_⟩ <;> exact fun f => ⟨toNat_sext16 f (by decide), toInt_sext16 f (by decide)⟩

/-- Settles O10: the halves of a byte's word, and the two extracted bytes as fields of the word. -/
theorem byteWordConversions : Obligations.ByteWordConversions := fun b v =>
  ⟨bits_zext16_low b, bits_zext16_high b, extract_toNat v 0 8, extract_toNat v 8 8⟩

end Sys2Proof.Machine
end

section
/-! SUPPORT. What a step can do to the output and the input (00_scope.md R12, R13), operation by operation. -/

namespace Sys2Proof.Machine

open Sys2Proof.Safety

/-- From `s` to `t` output was only appended, and input only taken from the front in the environment's order. -/
def QueuesAdvance (s t : State) : Prop :=
  (∃ emitted, t.outq = s.outq ++ emitted) ∧ (∃ k taken, InputMoved k taken s t)

theorem QueuesAdvance.trans {s t u : State} (h : QueuesAdvance s t) (h' : QueuesAdvance t u) : QueuesAdvance s u := by
  obtain ⟨⟨xs, hx⟩, j, bs, hj⟩ := h
  obtain ⟨⟨ys, hy⟩, k, cs, hk⟩ := h'
  exact ⟨⟨xs ++ ys, by rw [hy, hx, List.append_assoc]⟩, j + k, bs ++ cs, inputMoved_trans hj hk⟩

/-- A change that keeps the input and emits bytes. -/
theorem queuesAdvance_of_emitted {s t : State} {bs : List Byte} (hi : InputKept s t) (ho : t.outq = s.outq ++ bs) :
    QueuesAdvance s t :=
  ⟨⟨bs, ho⟩, 0, [], inputMoved_of_kept hi⟩

/-- A change that keeps the input and the output. -/
theorem queuesAdvance_of_kept {s t : State} (hi : InputKept s t) (ho : t.outq = s.outq) : QueuesAdvance s t :=
  queuesAdvance_of_emitted hi (by rw [ho, List.append_nil])

/-- A change of the input alone, from the front. -/
theorem queuesAdvance_of_onlyInput {s t : State} {k : Nat} {taken : List Byte} (h : OnlyInput s t)
    (hm : InputMoved k taken s t) : QueuesAdvance s t :=
  ⟨⟨[], by rw [h, List.append_nil]⟩, k, taken, hm⟩

/-! ### Operations on one field -/

theorem queuesAdvance_setPc (s : State) (p : Word) : QueuesAdvance s (s.setPc p) :=
  queuesAdvance_of_kept ⟨rfl, rfl, rfl⟩ rfl

theorem queuesAdvance_link (s : State) : QueuesAdvance s s.link := queuesAdvance_of_kept ⟨rfl, rfl, rfl⟩ rfl

theorem queuesAdvance_result (s : State) (dr : Reg) (v : Word) : QueuesAdvance s (s.result dr v) :=
  queuesAdvance_of_kept ⟨rfl, rfl, rfl⟩ rfl

theorem queuesAdvance_memWrite (s : State) (ea v : Word) : QueuesAdvance s (s.memWrite ea v) :=
  queuesAdvance_of_kept ⟨rfl, rfl, rfl⟩ rfl

theorem queuesAdvance_raiseFault (s : State) (c : FaultCause) (ir : Word) : QueuesAdvance s (s.raiseFault c ir) :=
  queuesAdvance_of_kept ⟨rfl, rfl, rfl⟩ rfl

theorem queuesAdvance_hold (s : State) (h : Option Hold) : QueuesAdvance s { s with hold := h } :=
  queuesAdvance_of_kept ⟨rfl, rfl, rfl⟩ rfl

theorem queuesAdvance_outBytes (s : State) (bs : List Byte) : QueuesAdvance s (s.outBytes bs) :=
  queuesAdvance_of_emitted ⟨rfl, rfl, rfl⟩ rfl

/-! ### Reads and the string loop -/

theorem queuesAdvance_memRead (s : State) (a : Word) : QueuesAdvance s (s.memRead a).2 :=
  ⟨⟨[], by rw [State.memRead_outq, List.append_nil]⟩, s.memRead_moved a⟩

theorem queuesAdvance_afterReads {s m : State} (h : AfterReads s m) : QueuesAdvance s m := by
  induction h with
  | none => exact queuesAdvance_of_kept ⟨rfl, rfl, rfl⟩ rfl
  | @read m a _ ih => exact ih.trans (queuesAdvance_memRead m a)

theorem queuesAdvance_fetch (s : State) : QueuesAdvance s s.fetch.2 :=
  (queuesAdvance_memRead s s.pc).trans (queuesAdvance_setPc _ _)

/-- One word printed: the read, then its bytes. -/
theorem queuesAdvance_printed (f : Word → List Byte) (s : State) (a : Word) :
    QueuesAdvance s ((s.memRead a).2.outBytes (f (s.memRead a).1)) :=
  (queuesAdvance_memRead s a).trans (queuesAdvance_outBytes _ _)

theorem queuesAdvance_prints {f : Word → List Byte} {a : Word} {s t : State} (h : Prints f a s t) : QueuesAdvance s t := by
  induction h with
  | @stop a s _ => exact queuesAdvance_memRead s a
  | @more a s t _ _ ih => exact (queuesAdvance_printed f s a).trans ih

theorem queuesAdvance_printsOn {f : Word → List Byte} {n : Nat} {a b : Word} {s t : State} (h : PrintsOn f n a s b t) :
    QueuesAdvance s t := by
  induction h with
  | here => exact queuesAdvance_of_kept ⟨rfl, rfl, rfl⟩ rfl
  | @more n a b s t _ _ ih => exact (queuesAdvance_printed f s a).trans ih

/-! ### The trap services -/

theorem queuesAdvance_stringService (s : State) (f : Word → List Byte) (held : Word → Hold) (a : Word) :
    QueuesAdvance s (s.stringService f held a) := by
  rcases s.stringService_cases f held a with h | ⟨b, m, h, e⟩
  · exact queuesAdvance_prints h
  · rw [e]
    exact (queuesAdvance_printsOn h).trans (queuesAdvance_hold m _)

theorem queuesAdvance_getcService (s : State) : QueuesAdvance s s.getcService := by
  rcases s.getcService_cases with ⟨b, t, k, e, ho, -, hm, -⟩ | ⟨t, e, ho, hm, -⟩ <;> rw [e]
  · exact (queuesAdvance_of_onlyInput ho hm).trans (queuesAdvance_result t _ _)
  · exact (queuesAdvance_of_onlyInput ho hm).trans (queuesAdvance_hold t _)

theorem queuesAdvance_inRead (s : State) : QueuesAdvance s s.inRead := by
  rcases s.inRead_cases with ⟨b, t, k, e, ho, -, hm, -⟩ | ⟨t, e, ho, hm, -⟩ <;> rw [e]
  · exact ((queuesAdvance_of_onlyInput ho hm).trans (queuesAdvance_outBytes t [b])).trans (queuesAdvance_result _ _ _)
  · exact (queuesAdvance_of_onlyInput ho hm).trans (queuesAdvance_hold t _)

theorem queuesAdvance_inService (s : State) : QueuesAdvance s s.inService :=
  (queuesAdvance_outBytes s Config.inPrompt).trans (queuesAdvance_inRead _)

theorem queuesAdvance_haltService (s : State) : QueuesAdvance s s.haltService :=
  queuesAdvance_of_emitted (bs := Config.haltMsg) ⟨rfl, rfl, rfl⟩ rfl

theorem queuesAdvance_route (s : State) (v : BitVec 8) (ir : Word) : QueuesAdvance s (s.route v ir) := by
  rcases s.route_cases v ir with ⟨-, e⟩ | ⟨-, e⟩ | ⟨-, e⟩ | ⟨-, e⟩ | ⟨-, e⟩ | ⟨-, e⟩ | ⟨-, e⟩ <;> rw [e]
  · exact queuesAdvance_getcService s
  · exact queuesAdvance_outBytes s _
  · exact queuesAdvance_stringService s _ _ _
  · exact queuesAdvance_inService s
  · exact queuesAdvance_stringService s _ _ _
  · exact queuesAdvance_haltService s
  · exact queuesAdvance_raiseFault s _ _

theorem queuesAdvance_resume (s : State) (k : Hold) : QueuesAdvance s (s.resume k) := by
  refine (queuesAdvance_hold s none).trans ?_
  cases k with
  | getc => exact queuesAdvance_getcService _
  | inp => exact queuesAdvance_inRead _
  | puts a => exact queuesAdvance_stringService _ _ _ a
  | putsp a => exact queuesAdvance_stringService _ _ _ a

/-! ### The instructions and the step -/

/-- Every instruction, by the five shapes of its next state. -/
theorem queuesAdvance_exec {i : Instr} {s t : State} (h : exec i s = .next t) : QueuesAdvance s t := by
  have of_eq {u : State} (e : exec i s = .next u) (hu : QueuesAdvance s u) : QueuesAdvance s t := by
    rw [h] at e
    cases e
    exact hu
  rcases exec_cases i s with ⟨m, dr, v, hm, -, -, -, -, -, -, e⟩ | ⟨m, ea, v, hm, -, -, -, e⟩ | ⟨p, -, -, e | ⟨-, e⟩⟩ |
    ⟨v, -, e⟩ | ⟨u, -, e⟩
  · exact of_eq e ((queuesAdvance_afterReads hm).trans (queuesAdvance_result m dr v))
  · exact of_eq e ((queuesAdvance_afterReads hm).trans (queuesAdvance_memWrite m ea v))
  · exact of_eq e (queuesAdvance_setPc s p)
  · exact of_eq e ((queuesAdvance_link s).trans (queuesAdvance_setPc _ p))
  · exact of_eq e ((queuesAdvance_link s).trans (queuesAdvance_route _ v _))
  · exact of_eq e (queuesAdvance_raiseFault s _ _)

/-- Every step: a service going on, or the fetch and the instruction. -/
theorem queuesAdvance_step {s t : State} (h : step s = .next t) : QueuesAdvance s t := by
  obtain ⟨-, ⟨k, -, e⟩ | ⟨-, e⟩⟩ := step_cases h
  · rw [e]
    exact queuesAdvance_resume s k
  · exact (queuesAdvance_fetch s).trans (queuesAdvance_exec e)

/-- Settles O55, operation by operation: each only appends to the output and only takes input from the front, and that
composes. -/
theorem outputAppendsInputIsFifo : Obligations.OutputAppendsInputIsFifo := fun _ _ h => queuesAdvance_step h

end Sys2Proof.Machine
end

section
/-! SUPPORT. The word behind an instruction: encoding a decoded word gives it back, and what the opcode and the vector of the
word say of the instruction (30_encoding.md R81, R86, R88). -/

namespace Sys2Proof

open Sys2Proof.Safety Sys2Proof.Machine
open Sys2Proof.Laws.Opcode (opcode)

/-- A TRAP word decodes to an instruction whose fields make up the word again, whichever of the seven rows it is in. -/
theorem encodeNum_decodeTrap {w : Word} (h : w.toNat / 4096 = 15) : encodeNum (decodeTrap w) = w.toNat := by
  have hv (v : BitVec 8) : w.extractLsb' 0 8 = v ↔ w.toNat % 256 = v.toNat := by
    rw [← BitVec.toNat_inj, extract_toNat, Nat.pow_zero, Nat.div_one]
    rfl
  simp only [decodeTrap, hv, BitVec.reduceToNat]
  split_ifs <;> simp only [encodeNum, extract_toNat] <;> omega

/-- The fields of a decoded instruction make up its word again. -/
theorem encodeNum_decode (w : Word) : encodeNum (decode w) = w.toNat := by
  have hlt := w.isLt
  unfold decode
  split <;> simp only [getLsbD_eq_decide, decide_eq_true_eq, decide_eq_false_iff_not] at *
  case h_16 => exact encodeNum_decodeTrap (by omega)
  case h_2 | h_5 | h_6 =>
    split <;> simp only [encodeNum, fieldDR, fieldSR1, fieldSR2, regNum_ofField, extract_toNat] <;> omega
  all_goals
    simp only [encodeNum, fieldDR, fieldSR1, regNum_ofField, extract_toNat]
    omega

/-- Encoding a decoded word gives the word back. -/
theorem encode_decode (w : Word) : encode (decode w) = w :=
  BitVec.eq_of_toNat_eq ((encode_toNat _).trans (encodeNum_decode w))

/-- Bits 15:12 of an instruction's word are its opcode. -/
theorem bits_encode_opcode (i : Instr) : bits (encode i) 15 12 = opcode i :=
  match i with
  | .addR dr sr1 u sr2 => Laws.Opcode.addR dr sr1 u sr2
  | .addI dr sr1 imm5 => Laws.Opcode.addI dr sr1 imm5
  | .andR dr sr1 u sr2 => Laws.Opcode.andR dr sr1 u sr2
  | .andI dr sr1 imm5 => Laws.Opcode.andI dr sr1 imm5
  | .not dr sr1 u => Laws.Opcode.not dr sr1 u
  | .ld dr off9 => Laws.Opcode.ld dr off9
  | .ldi dr off9 => Laws.Opcode.ldi dr off9
  | .lea dr off9 => Laws.Opcode.lea dr off9
  | .st sr off9 => Laws.Opcode.st sr off9
  | .sti sr off9 => Laws.Opcode.sti sr off9
  | .ldr dr baseR off6 => Laws.Opcode.ldr dr baseR off6
  | .str sr baseR off6 => Laws.Opcode.str sr baseR off6
  | .br nzp off9 => Laws.Opcode.br nzp off9
  | .jmp u baseR u' => Laws.Opcode.jmp u baseR u'
  | .jsr off11 => Laws.Opcode.jsr off11
  | .jsrr u baseR u' => Laws.Opcode.jsrr u baseR u'
  | .trap u v => Laws.Opcode.trap u v
  | .getc u => Laws.Opcode.getc u
  | .out u => Laws.Opcode.out u
  | .puts u => Laws.Opcode.puts u
  | .inp u => Laws.Opcode.inp u
  | .putsp u => Laws.Opcode.putsp u
  | .halt u => Laws.Opcode.halt u
  | .rti u => Laws.Opcode.rti u
  | .res u => Laws.Opcode.res u

/-- An instruction that goes through the trap router has opcode 15, and bits 7:0 of its word are its vector. -/
theorem trapVector_bits {i : Instr} {v : BitVec 8} (h : trapVector i = some v) :
    opcode i = 15 ∧ bits (encode i) 7 0 = v.toNat := by
  have hv := v.isLt
  cases i <;> simp only [trapVector, Option.some.injEq, reduceCtorEq] at h <;> subst h <;> refine ⟨rfl, ?_⟩ <;>
    rw [bits, encode_toNat, encodeNum] <;> simp <;> omega

/-- An instruction that defines a result with its flag, stores or transfers control, without the trap router, has none of the
opcodes 8, 13 and 15. -/
theorem opcode_ordinary {i : Instr} (hv : trapVector i = none)
    (hk : writesFlag i = true ∨ isStore i = true ∨ isControl i = true) : opcode i ≠ 8 ∧ opcode i ≠ 13 ∧ opcode i ≠ 15 := by
  cases i
  case rti | res => simp [writesFlag, isStore, isControl] at hk
  case trap | getc | out | puts | inp | putsp | halt => exact nomatch hv
  all_goals simp [opcode]

/-- The six defined vectors, as a range of bits 7:0. -/
theorem isServiceVector_iff (v : BitVec 8) : isServiceVector v = true ↔ 0x20 ≤ v.toNat ∧ v.toNat ≤ 0x25 := decide_eq_true_iff

end Sys2Proof
end

section
/-! SUPPORT. Canonical memories, the flag rule, registers and reset (10_state.md R20, R27, R35, R39), and their statements. -/

namespace Sys2Proof.Machine

open Sys2Proof.Safety

/-! ### Canonical memories -/

/-- The canonical form, entry by entry. -/
theorem Memory.wfFrom_cons {lo k : Nat} {v : Word} {rest : Memory} :
    Memory.wfFrom lo ((k, v) :: rest) = true ↔ lo ≤ k ∧ k < 65536 ∧ v ≠ Config.memUnlisted ∧ rest.wfFrom (k + 1) = true := by
  simp only [Memory.wfFrom, Bool.and_eq_true, decide_eq_true_eq, and_assoc]

theorem Memory.read_cons_same (k : Nat) (v : Word) (rest : Memory) : Memory.read ((k, v) :: rest) k = v := if_pos rfl

theorem Memory.read_cons_ne {k a : Nat} (h : k ≠ a) (v : Word) (rest : Memory) :
    Memory.read ((k, v) :: rest) a = rest.read a := if_neg h

/-- The first address a canonical memory lists is not below that of another with the same cells: the other reads an unlisted
cell below its own first address. -/
theorem Memory.first_le_of_read_eq {lo k j : Nat} {v w : Word} {rest rest' : Memory}
    (hm : Memory.wfFrom lo ((k, v) :: rest) = true) (hm' : Memory.wfFrom lo ((j, w) :: rest') = true)
    (hr : Memory.read ((k, v) :: rest) k = Memory.read ((j, w) :: rest') k) : j ≤ k := by
  obtain ⟨-, -, hv, -⟩ := Memory.wfFrom_cons.mp hm
  obtain ⟨-, hj, hw, hrest'⟩ := Memory.wfFrom_cons.mp hm'
  by_contra hlt
  have hbelow : Memory.wfFrom j ((j, w) :: rest') = true := Memory.wfFrom_cons.mpr ⟨Nat.le_refl j, hj, hw, hrest'⟩
  rw [Memory.read_cons_same, Memory.read_below hbelow (by omega)] at hr
  exact hv hr

/-- A canonical memory whose cells all read as unlisted lists nothing. -/
theorem Memory.eq_nil_of_read {lo : Nat} {m : Memory} (hm : m.wfFrom lo = true)
    (hr : ∀ a < 65536, m.read a = Config.memUnlisted) : m = [] := by
  match m with
  | [] => rfl
  | (k, v) :: rest =>
    obtain ⟨-, hk, hv, -⟩ := Memory.wfFrom_cons.mp hm
    exact absurd ((Memory.read_cons_same k v rest).symm.trans (hr k hk)) hv

/-- Canonical memories with the same cells are the same list: their first entries agree, and so do the rests, which list
nothing up to the first address. -/
theorem Memory.eq_of_read {lo : Nat} {m m' : Memory} (hm : m.wfFrom lo = true) (hm' : m'.wfFrom lo = true)
    (hr : ∀ a < 65536, m.read a = m'.read a) : m = m' := by
  induction m generalizing lo m' with
  | nil => exact (Memory.eq_nil_of_read hm' fun a ha => (hr a ha).symm).symm
  | cons c rest ih =>
    obtain ⟨k, v⟩ := c
    match m' with
    | [] => exact Memory.eq_nil_of_read hm hr
    | (j, w) :: rest' =>
      obtain ⟨-, hk, -, hrest⟩ := Memory.wfFrom_cons.mp hm
      obtain ⟨-, hj, -, hrest'⟩ := Memory.wfFrom_cons.mp hm'
      obtain rfl : j = k := Nat.le_antisymm (Memory.first_le_of_read_eq hm hm' (hr k hk))
        (Memory.first_le_of_read_eq hm' hm (hr j hj).symm)
      obtain rfl : v = w := by simpa only [Memory.read_cons_same] using hr j hj
      refine congrArg _ (ih hrest hrest' fun a ha => ?_)
      by_cases hja : j = a
      · rw [Memory.read_below hrest (by omega), Memory.read_below hrest' (by omega)]
      · simpa only [Memory.read_cons_ne hja] using hr a ha

/-- Loading words keeps the canonical form, since no word is placed beyond the last address. -/
theorem Memory.wf_loadWords {a : Nat} {ws : List Word} {m : Memory} (h : m.wf = true) : (loadWords a ws m).wf = true := by
  induction ws generalizing a m with
  | nil => exact h
  | cons w ws ih =>
    rw [loadWords]
    split
    · exact ih (Memory.wfFrom_write (Nat.zero_le a) ‹_› h)
    · exact h

theorem Memory.wf_loadImage {image : List Byte} {m : Memory} (h : m.wf = true) : (loadImage image m).wf = true := by
  rw [loadImage]
  split
  · exact h
  · exact Memory.wf_loadWords h

/-- Settles O15: a cell write keeps the canonical form, and an image is loaded by cell writes. -/
theorem memoryStaysCanonical : Obligations.MemoryStaysCanonical :=
  ⟨fun _ a _ h => Memory.wfFrom_write (Nat.zero_le _) a.isLt h, fun _ _ h => Memory.wf_loadImage h⟩

/-- Settles O16, by induction on the two lists. -/
theorem canonicalMemoriesEqualByContent : Obligations.CanonicalMemoriesEqualByContent := fun _ _ h₁ h₂ hr =>
  Memory.eq_of_read h₁ h₂ fun a ha => by
    simpa only [BitVec.toNat_ofNat, Nat.reducePow, Nat.mod_eq_of_lt ha] using hr (BitVec.ofNat 16 a)

/-! ### The flag rule -/

/-- The flag of a word by the sign of its value: the three ranges of the flag rule are those of a negative, a zero and a
positive value (10_state.md R27). -/
theorem condOf_toInt (v : Word) :
    (condOf v = .n ↔ v.toInt < 0) ∧ (condOf v = .z ↔ v.toInt = 0) ∧ (condOf v = .p ↔ 0 < v.toInt) := by
  have hlt := v.isLt
  have hi := BitVec.toInt_eq_toNat_cond v
  obtain ⟨hn, hz, hp⟩ := flagOf_condOf v
  have hrange : 0x8000 ≤ v.toNat ∨ v.toNat = 0 ∨ 1 ≤ v.toNat ∧ v.toNat ≤ 0x7FFF := by omega
  rcases hrange with h | h | h
  · simp only [hn h, true_iff, reduceCtorEq, false_iff]
    omega
  · simp only [hz h, true_iff, reduceCtorEq, false_iff]
    omega
  · simp only [hp h, true_iff, reduceCtorEq, false_iff]
    omega

/-- Settles O11: the flag by sign and by range, of the one field `setcc` writes. -/
theorem setccFollowsSignAndZero : Obligations.SetccFollowsSignAndZero := fun _ v =>
  have ⟨hn, hz, hp⟩ := condOf_toInt v
  ⟨hn, hz, hp, flagOf_condOf v, rfl⟩

/-! ### Registers -/

/-- Settles O13: the read-after-write law of the register file, and the numbering of registers. -/
theorem registerWriteThenRead : Obligations.RegisterWriteThenRead :=
  ⟨fun s r q v => ⟨s.reg_setReg r q v, rfl⟩, regNum_ofField, Reg.ofField_toField⟩

/-! ### Reset -/

/-- A fetch from anywhere but KBSR reads the cell at `pc` and changes `pc` alone. -/
theorem State.fetch_plain {s : State} (h : s.pc ≠ Config.kbsrAddr) : s.fetch = (s.cell s.pc, s.setPc (s.pc + 1)) := by
  rw [State.fetch, State.memRead_plain h]

/-- The step of a running core with no service in progress. -/
theorem step_running {s : State} (hs : s.status = .running) (hh : s.hold = none) :
    step s = exec (decode s.fetch.1) s.fetch.2 := by
  rw [step, hs, hh]

/-- Settles O47: reset's fields as they are set, and a plain fetch, 0x3000 not being KBSR. -/
theorem resetAndFirstFetch : Obligations.ResetAndFirstFetch := by
  rintro gpr m inq arrivals later s rfl
  refine ⟨rfl, rfl, rfl, rfl, rfl, rfl, rfl, rfl, rfl, ?_⟩
  rw [step_running rfl rfl, State.fetch_plain (by decide : Config.resetPc ≠ Config.kbsrAddr)]
  rfl

end Sys2Proof.Machine
end

section
/-! SUPPORT. The invariant, operation by operation (10_state.md R29, R31; 60_exceptions.md R171 to R174; 43_trap.md R150, R158
to R160): inside a step the core runs with no fault and no hold; each way a step ends establishes the invariant again. -/

namespace Sys2Proof.Machine

open Sys2Proof.Safety

/-- A core inside its step: running, memory canonical, no fault, no service in progress. -/
structure Ready (s : State) : Prop where
  memWf : s.mem.wf = true
  running : s.status = .running
  noFault : s.fault = none
  noHold : s.hold = none

/-- The same once the link is saved. -/
structure Linked (s : State) : Prop extends Ready s where
  link : s.reg .r7 = s.pc

/-! ### What keeps a core ready, or linked -/

theorem Ready.of_kept {s t : State} (h : Ready s) (hw : t.mem.wf = true) (hk : RunKept s t) : Ready t :=
  ⟨hw, hk.1.trans h.running, hk.2.1.trans h.noFault, hk.2.2.trans h.noHold⟩

theorem Linked.of_kept {s t : State} (h : Linked s) (hw : t.mem.wf = true) (hk : RunKept s t)
    (hl : t.reg .r7 = s.reg .r7) (hp : t.pc = s.pc) : Linked t :=
  ⟨h.toReady.of_kept hw hk, by rw [hl, hp, h.link]⟩

theorem Linked.onlyInput {s t : State} (h : Linked s) (ho : OnlyInput s t) : Linked t := by
  rw [ho]
  exact h.of_kept h.memWf ⟨rfl, rfl, rfl⟩ rfl rfl

theorem Linked.prints {s t : State} {f : Word → List Byte} {a : Word} (h : Linked s) (hp : Prints f a s t) : Linked t := by
  have hw := prints_wf hp h.memWf
  rw [prints_frame hp] at hw ⊢
  exact h.of_kept hw ⟨rfl, rfl, rfl⟩ rfl rfl

theorem Linked.printsOn {s t : State} {f : Word → List Byte} {n : Nat} {a b : Word} (h : Linked s)
    (hp : PrintsOn f n a s b t) : Linked t := by
  have hw := printsOn_wf hp h.memWf
  rw [printsOn_frame hp] at hw ⊢
  exact h.of_kept hw ⟨rfl, rfl, rfl⟩ rfl rfl

theorem Ready.result {s : State} (h : Ready s) (dr : Reg) (v : Word) : Ready (s.result dr v) :=
  h.of_kept h.memWf ⟨rfl, rfl, rfl⟩

theorem Ready.setPc {s : State} (h : Ready s) (p : Word) : Ready (s.setPc p) := h.of_kept h.memWf ⟨rfl, rfl, rfl⟩

theorem Ready.memWrite {s : State} (h : Ready s) (ea v : Word) : Ready (s.memWrite ea v) :=
  h.of_kept (State.wf_setCell h.memWf ea v) ⟨rfl, rfl, rfl⟩

theorem Linked.outBytes {s : State} (h : Linked s) (bs : List Byte) : Linked (s.outBytes bs) :=
  h.of_kept h.memWf ⟨rfl, rfl, rfl⟩ rfl rfl

theorem Ready.link {s : State} (h : Ready s) : Linked s.link := ⟨h.of_kept h.memWf ⟨rfl, rfl, rfl⟩, by simp⟩

theorem Ready.afterReads {s m : State} (h : Ready s) (hr : AfterReads s m) : Ready m := by
  have hw := afterReads_wf hr h.memWf
  rw [afterReads_eq hr] at hw ⊢
  exact h.of_kept hw ⟨rfl, rfl, rfl⟩

theorem Ready.fetch {s : State} (h : Ready s) : Ready s.fetch.2 := (h.afterReads (.read s.pc .none)).setPc _

/-! ### The four ways a step ends -/

/-- It completes. -/
theorem Ready.inv {s : State} (h : Ready s) : Inv s where
  memWf := h.memWf
  faultedIff := by simp [h.running, h.noFault]
  recordFits := by simp [h.noFault]
  heldRuns := by simp [h.noHold]

/-- It leaves a service in progress. -/
theorem Linked.inv_held {s : State} (h : Linked s) (k : Hold) : Inv { s with hold := some k } :=
  { h.toReady.inv with heldRuns := fun _ => ⟨h.running, h.link⟩ }

/-- It halts. -/
theorem Ready.inv_halted {s : State} (h : Ready s) : Inv { s with status := .halted } where
  memWf := h.memWf
  faultedIff := by simp [h.noFault]
  recordFits := by simp [h.noFault]
  heldRuns := by simp [h.noHold]

/-- It takes a fault whose record fits. -/
theorem Ready.inv_raiseFault {s : State} (h : Ready s) {c : FaultCause} {ir : Word}
    (hf : RecordFits ⟨c, s.pc - 1, ir⟩ (s.raiseFault c ir)) : Inv (s.raiseFault c ir) where
  memWf := h.memWf
  faultedIff := by simp
  recordFits := by rintro r ⟨⟩; exact hf
  heldRuns := by simp [h.noHold]

/-! ### The services -/

theorem Linked.inv_getcService {s : State} (h : Linked s) : Inv s.getcService := by
  rcases s.getcService_cases with ⟨b, t, k, e, ho, -⟩ | ⟨t, e, ho, -⟩ <;> rw [e]
  · exact ((h.onlyInput ho).toReady.result .r0 (zext16 b)).inv
  · exact (h.onlyInput ho).inv_held _

theorem Linked.inv_inRead {s : State} (h : Linked s) : Inv s.inRead := by
  rcases s.inRead_cases with ⟨b, t, k, e, ho, -⟩ | ⟨t, e, ho, -⟩ <;> rw [e]
  · exact (((h.onlyInput ho).outBytes [b]).toReady.result .r0 (zext16 b)).inv
  · exact (h.onlyInput ho).inv_held _

theorem Linked.inv_stringService {s : State} (h : Linked s) (f : Word → List Byte) (held : Word → Hold) (a : Word) :
    Inv (s.stringService f held a) := by
  rcases s.stringService_cases f held a with hp | ⟨b, m, hp, e⟩
  · exact (h.prints hp).toReady.inv
  · rw [e]
    exact (h.printsOn hp).inv_held _

/-- The record of an undefined vector fits once the link is saved: opcode 15, a vector outside the six, R7 after the word. -/
theorem Linked.recordFits_badTrapVector {s : State} (h : Linked s) {v : BitVec 8} {ir : Word} (hop : bits ir 15 12 = 15)
    (hv : bits ir 7 0 = v.toNat) (hs : isServiceVector v = false) :
    RecordFits ⟨.badTrapVector, s.pc - 1, ir⟩ (s.raiseFault .badTrapVector ir) :=
  ⟨(BitVec.sub_add_cancel s.pc 1).symm, nofun, fun _ =>
    ⟨hop, by simpa only [hv] using of_decide_eq_false hs, h.link.trans (BitVec.sub_add_cancel s.pc 1).symm⟩⟩

/-- The router, for a word whose vector it is given. -/
theorem Linked.inv_route {s : State} (h : Linked s) {v : BitVec 8} {ir : Word} (hop : bits ir 15 12 = 15)
    (hv : bits ir 7 0 = v.toNat) : Inv (s.route v ir) := by
  rcases s.route_cases v ir with ⟨-, e⟩ | ⟨-, e⟩ | ⟨-, e⟩ | ⟨-, e⟩ | ⟨-, e⟩ | ⟨-, e⟩ | ⟨hs, e⟩ <;> rw [e]
  · exact h.inv_getcService
  · exact (h.outBytes _).toReady.inv
  · exact h.inv_stringService _ _ _
  · exact (h.outBytes _).inv_inRead
  · exact h.inv_stringService _ _ _
  · exact (h.outBytes _).toReady.inv_halted
  · exact h.toReady.inv_raiseFault (h.recordFits_badTrapVector hop hv hs)

theorem Linked.inv_resume {s : State} (h : Linked { s with hold := none }) (k : Hold) : Inv (s.resume k) := by
  cases k with
  | getc => exact h.inv_getcService
  | inp => exact h.inv_inRead
  | puts a => exact h.inv_stringService _ _ a
  | putsp a => exact h.inv_stringService _ _ a

/-! ### The instructions and the step -/

/-- The record of a reserved opcode fits. -/
theorem recordFits_reservedOpcode {s : State} {i : Instr} {u : BitVec 12} (hi : i = .rti u ∨ i = .res u) :
    RecordFits ⟨.reservedOpcode, s.pc - 1, encode i⟩ (s.raiseFault .reservedOpcode (encode i)) := by
  refine ⟨(BitVec.sub_add_cancel s.pc 1).symm, fun _ => ?_, nofun⟩
  rcases hi with rfl | rfl
  · exact .inl (bits_encode_opcode _)
  · exact .inr (bits_encode_opcode _)

/-- An instruction has one next state. -/
theorem exec_unique {i : Instr} {s t u : State} (h : exec i s = .next t) (e : exec i s = .next u) : t = u :=
  Host.Outcome.next.inj (h.symm.trans e)

/-- Every instruction, by the five shapes of its next state. -/
theorem Ready.inv_exec {i : Instr} {s t : State} (h : Ready s) (hx : exec i s = .next t) : Inv t := by
  rcases exec_cases i s with ⟨m, dr, v, hm, -, -, -, -, -, -, e⟩ | ⟨m, ea, v, hm, -, -, -, e⟩ | ⟨p, -, -, e | ⟨-, e⟩⟩ |
    ⟨v, hv, e⟩ | ⟨u, hi, e⟩ <;> obtain rfl := exec_unique hx e
  · exact ((h.afterReads hm).result dr v).inv
  · exact ((h.afterReads hm).memWrite ea v).inv
  · exact (h.setPc p).inv
  · exact (h.link.setPc p).inv
  · obtain ⟨hop, hbits⟩ := trapVector_bits hv
    exact (h.link.inv_route ((bits_encode_opcode i).trans hop) hbits)
  · exact (h.inv_raiseFault (recordFits_reservedOpcode hi))

/-- A running core with no service in progress that meets the invariant is ready to take its step. -/
theorem ready_of_inv {s : State} (h : Inv s) (hs : s.status = .running) (hh : s.hold = none) : Ready s :=
  ⟨h.memWf, hs, by simpa [hs] using h.faultedIff, hh⟩

/-- A core with a service in progress has its link saved. -/
theorem linked_of_held {s : State} {k : Hold} (h : Inv s) (hk : s.hold = some k) : Linked { s with hold := none } := by
  obtain ⟨hs, hl⟩ := h.heldRuns (by simp [hk])
  exact ⟨⟨h.memWf, hs, by simpa [hs] using h.faultedIff, rfl⟩, hl⟩

/-- Settles O59: a service in progress goes on from its saved link, and an instruction runs in a ready core. -/
theorem everyStepKeepsInvariant : Obligations.EveryStepKeepsInvariant := by
  intro s t h hstep
  obtain ⟨hs, ⟨k, hk, e⟩ | ⟨hh, e⟩⟩ := step_cases hstep
  · rw [e]
    exact (linked_of_held h hk).inv_resume k
  · exact (ready_of_inv h hs hh).fetch.inv_exec e

/-- Settles O58: reset leaves a core that is ready. -/
theorem invariantHoldsAtReset : Obligations.InvariantHoldsAtReset :=
  have hready {gpr : RegFile} {m : Memory} {inq arrivals later} (hw : m.wf = true) :
      Ready (State.resetWith gpr m inq arrivals later) := ⟨hw, rfl, rfl, rfl⟩
  ⟨fun _ _ _ _ _ hw => (hready hw).inv, (hready rfl).inv⟩

end Sys2Proof.Machine
end

section
/-! SUPPORT. What every instruction does to the registers, the flag, `pc` and the run state (10_state.md R21, R24, R28, R30),
from what each service does to them. -/

namespace Sys2Proof.Machine

open Sys2Proof.Safety
open Sys2Proof.Laws.Opcode (opcode)

/-! ### The services -/

/-- From `s` to `t` no register changed but those listed, the flag only if `flag` says so, and neither `pc` nor the run
state. -/
structure Keeps (rs : List Reg) (flag : Bool) (s t : State) : Prop where
  regs : RegsKept rs s t
  cond : flag = false → t.cond = s.cond
  pc : t.pc = s.pc
  status : t.status = s.status

theorem keeps_getcService (s : State) : Keeps [.r0] true s s.getcService := by
  rcases s.getcService_cases with ⟨b, t, k, e, ho, -⟩ | ⟨t, e, ho, -⟩ <;> rw [e, ho]
  · exact ⟨fun r hr => (State.reg_result _ .r0 r _).trans (if_neg (by simpa using hr)), nofun, rfl, rfl⟩
  · exact ⟨fun _ _ => rfl, nofun, rfl, rfl⟩

theorem keeps_inRead (s : State) : Keeps [.r0] true s s.inRead := by
  rcases s.inRead_cases with ⟨b, t, k, e, ho, -⟩ | ⟨t, e, ho, -⟩ <;> rw [e, ho]
  · exact ⟨fun r hr => (State.reg_result _ .r0 r _).trans (if_neg (by simpa using hr)), nofun, rfl, rfl⟩
  · exact ⟨fun _ _ => rfl, nofun, rfl, rfl⟩

theorem keeps_stringService (s : State) (f : Word → List Byte) (held : Word → Hold) (a : Word) :
    Keeps [] false s (s.stringService f held a) := by
  rw [(s.stringService_frame f held a).1]
  exact ⟨fun _ _ => rfl, fun _ => rfl, rfl, rfl⟩

theorem keeps_resume (s : State) (k : Hold) : Keeps [.r0] true s (s.resume k) := by
  have of_string {t : State} (h : Keeps [] false { s with hold := none } t) : Keeps [.r0] true s t :=
    ⟨fun r _ => h.regs r (by simp), nofun, h.pc, h.status⟩
  cases k with
  | getc => exact { keeps_getcService { s with hold := none } with }
  | inp => exact { keeps_inRead { s with hold := none } with }
  | puts a => exact of_string (keeps_stringService _ _ _ a)
  | putsp a => exact of_string (keeps_stringService _ _ _ a)

/-! ### The router -/

/-- The vectors whose service defines R0 and the flag: GETC and IN. -/
def readsByte (v : BitVec 8) : Bool := decide (v = 0x20 ∨ v = 0x23)

/-- The run state the router leaves, from the one it finds: HALTED by HALT, FAULTED by an undefined vector. -/
def routedStatus (v : BitVec 8) (r : RunState) : RunState :=
  if v = 0x25 then .halted else if isServiceVector v then r else .faulted

/-- What the router leaves, by vector. -/
theorem State.route_leaves (s : State) (v : BitVec 8) (ir : Word) :
    RegsKept (if readsByte v then [.r0] else []) s (s.route v ir) ∧ (readsByte v = false → (s.route v ir).cond = s.cond) ∧
    (s.route v ir).pc = s.pc ∧ (s.route v ir).status = routedStatus v s.status := by
  rcases s.route_cases v ir with ⟨rfl, e⟩ | ⟨rfl, e⟩ | ⟨rfl, e⟩ | ⟨rfl, e⟩ | ⟨rfl, e⟩ | ⟨rfl, e⟩ | ⟨hv, e⟩ <;> rw [e]
  · obtain ⟨hr, -, hp, hs⟩ := keeps_getcService s
    exact ⟨hr, nofun, hp, hs⟩
  · exact ⟨fun _ _ => rfl, fun _ => rfl, rfl, rfl⟩
  · obtain ⟨hr, hc, hp, hs⟩ := keeps_stringService s putsBytes .puts (s.reg .r0)
    exact ⟨hr, fun _ => hc rfl, hp, hs⟩
  · obtain ⟨hr, -, hp, hs⟩ := keeps_inRead (s.outBytes Config.inPrompt)
    exact ⟨hr, nofun, hp, hs⟩
  · obtain ⟨hr, hc, hp, hs⟩ := keeps_stringService s putspBytes .putsp (s.reg .r0)
    exact ⟨hr, fun _ => hc rfl, hp, hs⟩
  · exact ⟨fun _ _ => rfl, fun _ => rfl, rfl, rfl⟩
  · refine ⟨fun _ _ => rfl, fun _ => rfl, rfl, ?_⟩
    have h25 : v ≠ 0x25 := by rintro rfl; exact absurd hv (by decide)
    simp only [routedStatus, h25, hv, if_false, Bool.false_eq_true, State.raiseFault_status]

/-! ### Registers and flag -/

/-- The write lists of an instruction that goes through the router, by its vector. -/
theorem writes_of_trapVector {i : Instr} {v : BitVec 8} (h : trapVector i = some v) :
    writesRegs i = .r7 :: (if readsByte v then [.r0] else []) ∧ writesFlag i = readsByte v := by
  cases i <;> simp only [trapVector, Option.some.injEq, reduceCtorEq] at h <;> subst h
  case trap u v =>
    refine ⟨?_, rfl⟩
    simp only [writesRegs, readsByte, decide_eq_true_eq]
    split <;> rfl
  all_goals exact ⟨rfl, rfl⟩

/-- A register outside the list is written neither by the link nor by the service. -/
theorem regsKept_link_route (s : State) (v : BitVec 8) (ir : Word) :
    RegsKept (.r7 :: (if readsByte v then [.r0] else [])) s (s.link.route v ir) := fun r hr => by
  obtain ⟨h7, hv⟩ := not_or.mp (mt List.mem_cons.mpr hr)
  rw [(s.link.route_leaves v ir).1 r hv, State.reg_link, if_neg h7]

/-- Settles O51, by the five shapes of a next state. -/
theorem registerAndFlagWriters : Obligations.RegisterAndFlagWriters := by
  intro i s t h
  rcases exec_cases i s with ⟨m, dr, v, hm, hw, hf, -, -, -, -, e⟩ | ⟨m, ea, v, hm, -, -, -, e⟩ | ⟨p, -, -, e | ⟨hw, e⟩⟩ |
    ⟨v, hv, e⟩ | ⟨u, -, e⟩ <;> obtain rfl := exec_unique h e
  · rw [afterReads_eq hm, hw, hf]
    exact ⟨fun r hr => (State.reg_result _ dr r v).trans (if_neg (by simpa using hr)), nofun⟩
  · rw [afterReads_eq hm]
    exact ⟨fun _ _ => rfl, fun _ => rfl⟩
  · exact ⟨fun _ _ => rfl, fun _ => rfl⟩
  · rw [hw]
    exact ⟨fun r hr => (State.reg_link s r).trans (if_neg (by simpa using hr)), fun _ => rfl⟩
  · obtain ⟨hw, hf⟩ := writes_of_trapVector hv
    rw [hw, hf]
    exact ⟨regsKept_link_route s v _, (s.link.route_leaves v _).2.1⟩
  · exact ⟨fun _ _ => rfl, fun _ => rfl⟩

/-! ### The program counter -/

@[simp] theorem State.fetch_word (s : State) : s.fetch.1 = (s.memRead s.pc).1 := rfl
@[simp] theorem State.fetch_pc (s : State) : s.fetch.2.pc = s.pc + 1 := rfl
@[simp] theorem State.fetch_reg (s : State) (r : Reg) : s.fetch.2.reg r = s.reg r := s.memRead_reg s.pc r
@[simp] theorem State.fetch_cond (s : State) : s.fetch.2.cond = s.cond := s.memRead_cond s.pc
@[simp] theorem State.fetch_status (s : State) : s.fetch.2.status = s.status := s.memRead_status s.pc

/-- Inside its step no instruction but a control transfer changes `pc`, TRAP and the faults included. -/
theorem exec_pc {i : Instr} {s t : State} (hi : isControl i = false) (h : exec i s = .next t) : t.pc = s.pc := by
  rcases exec_cases i s with ⟨m, dr, v, hm, -, -, -, -, -, -, e⟩ | ⟨m, ea, v, hm, -, -, -, e⟩ | ⟨p, hc, -⟩ |
    ⟨v, -, e⟩ | ⟨u, -, e⟩
  case inr.inr.inl => exact absurd hc (by simp [hi])
  all_goals obtain rfl := exec_unique h e
  · rw [afterReads_eq hm]
    rfl
  · rw [afterReads_eq hm]
    rfl
  · exact (s.link.route_leaves v _).2.2.1
  · rfl

/-- The four control transfers. -/
theorem isControl_eq_false {i : Instr} (hbr : ∀ nzp off9, i ≠ .br nzp off9) (hjmp : ∀ u r u', i ≠ .jmp u r u')
    (hjsr : ∀ off11, i ≠ .jsr off11) (hjsrr : ∀ u r u', i ≠ .jsrr u r u') : isControl i = false := by
  cases i
  case br nzp off9 => exact absurd rfl (hbr nzp off9)
  case jmp u r u' => exact absurd rfl (hjmp u r u')
  case jsr off11 => exact absurd rfl (hjsr off11)
  case jsrr u r u' => exact absurd rfl (hjsrr u r u')
  all_goals rfl

/-- Settles O49: the fetch leaves A + 1, from which the four control transfers set `pc` and every other instruction does
not. -/
theorem pcAfterEachStep : Obligations.PcAfterEachStep := by
  intro s t hs hh hstep
  rw [step_running hs hh, State.fetch_word] at hstep
  refine ⟨fun nzp off9 e => ?_, fun u r u' e => ?_, fun off11 e => ?_, fun u r u' e => ?_, fun hbr hjmp hjsr hjsrr => ?_⟩
  case refine_5 => exact exec_pc (isControl_eq_false hbr hjmp hjsr hjsrr) hstep
  all_goals
    rw [e] at hstep
    cases hstep
  · simp only [brTaken, State.fetch_cond, bne_iff_ne, ne_eq, ite_not]
    split <;> rfl
  · exact s.fetch_reg r
  · rfl
  · simp

/-! ### The run state -/

/-- The run state in which a running core is left by the word `w` (10_state.md R30). -/
def wordStatus (w : Word) : RunState :=
  if bits w 15 12 = 8 ∨ bits w 15 12 = 13 then .faulted
  else if bits w 15 12 = 15 then
    if bits w 7 0 = 0x25 then .halted
    else if 0x20 ≤ bits w 7 0 ∧ bits w 7 0 ≤ 0x25 then .running
    else .faulted
  else .running

theorem wordStatus_halted (w : Word) : wordStatus w = .halted ↔ bits w 15 12 = 15 ∧ bits w 7 0 = 0x25 := by
  unfold wordStatus
  split_ifs <;> simp <;> omega

theorem wordStatus_faulted (w : Word) : wordStatus w = .faulted ↔ bits w 15 12 = 8 ∨ bits w 15 12 = 13 ∨
    (bits w 15 12 = 15 ∧ ¬(0x20 ≤ bits w 7 0 ∧ bits w 7 0 ≤ 0x25)) := by
  unfold wordStatus
  split_ifs <;> simp <;> omega

theorem wordStatus_ordinary {i : Instr} (hv : trapVector i = none)
    (hk : writesFlag i = true ∨ isStore i = true ∨ isControl i = true) : wordStatus (encode i) = .running := by
  obtain ⟨h8, h13, h15⟩ := opcode_ordinary hv hk
  simp only [wordStatus, bits_encode_opcode, h8, h13, h15, or_self, if_false]

theorem wordStatus_trap {i : Instr} {v : BitVec 8} (h : trapVector i = some v) :
    wordStatus (encode i) = routedStatus v .running := by
  obtain ⟨hop, hv⟩ := trapVector_bits h
  have h25 : v.toNat = 0x25 ↔ v = 0x25 := by rw [← BitVec.toNat_inj]; rfl
  simp [wordStatus, routedStatus, bits_encode_opcode, hop, hv, h25, isServiceVector_iff]

theorem wordStatus_reserved {i : Instr} {u : BitVec 12} (h : i = .rti u ∨ i = .res u) : wordStatus (encode i) = .faulted := by
  rw [wordStatus, bits_encode_opcode]
  rcases h with rfl | rfl <;> rfl

/-- The run state after an instruction of a running core. -/
theorem exec_status {i : Instr} {s t : State} (hs : s.status = .running) (h : exec i s = .next t) :
    t.status = wordStatus (encode i) := by
  rcases exec_cases i s with ⟨m, dr, v, hm, -, hf, -, hv, -, -, e⟩ | ⟨m, ea, v, hm, hst, -, hv, e⟩ |
    ⟨p, hc, hv, e | ⟨-, e⟩⟩ | ⟨v, hv, e⟩ | ⟨u, hi, e⟩ <;> obtain rfl := exec_unique h e
  · rw [wordStatus_ordinary hv (.inl hf), afterReads_eq hm]
    exact hs
  · rw [wordStatus_ordinary hv (.inr (.inl hst)), afterReads_eq hm]
    exact hs
  · exact hs.trans (wordStatus_ordinary hv (.inr (.inr hc))).symm
  · exact hs.trans (wordStatus_ordinary hv (.inr (.inr hc))).symm
  · rw [wordStatus_trap hv, (s.link.route_leaves v _).2.2.2, State.link_status, hs]
  · exact (wordStatus_reserved hi).symm

/-- Settles O50: a service going on leaves the core running, and the fetched word leaves it as `wordStatus` says. -/
theorem statusTransitions : Obligations.StatusTransitions := by
  intro s t hstep
  obtain ⟨hs, ⟨k, hk, rfl⟩ | ⟨hh, e⟩⟩ := step_cases hstep
  · have ht : (s.resume k).status = .running := (keeps_resume s k).status.trans hs
    simp [hs, hk, ht]
  · have ht : t.status = wordStatus (s.memRead s.pc).1 := by
      rw [exec_status (s.fetch_status.trans hs) e, encode_decode, State.fetch_word]
    simp only [hs, hh, ht, wordStatus_halted, wordStatus_faulted, true_and, and_self]

end Sys2Proof.Machine
end

section
/-! SUPPORT. Noninterference (10_state.md R21, R28): an instruction run in two states that differ in registers it does not
read and, unless it is BR, in the flag, does the same in both. One relation between two runs carries this through every
operation. -/

namespace Sys2Proof.Machine

open Sys2Proof.Safety

/-! ### Two states that differ in registers and flag alone -/

/-- The state with other registers and another flag. -/
def State.withFile (s : State) (rs : RegFile) (c : Cond) : State := { s with regs := rs, cond := c }

theorem State.memRead_withFile (s : State) (rs : RegFile) (c : Cond) (a : Word) :
    (s.withFile rs c).memRead a = ((s.memRead a).1, (s.memRead a).2.withFile rs c) := by
  have h := s.memRead_withCore a rs s.pc c s.outq s.hold
  rw [s.memRead_eq a] at h ⊢
  exact h

/-- `KbdRead()` changes the input alone. -/
theorem State.kbdRead_onlyInput (s : State) : OnlyInput s s.kbdRead.2 := by
  rcases s.kbdRead_cases with ⟨b, t, k, e, h, -⟩ | ⟨t, e, h, -⟩ <;> rw [e] <;> exact h

theorem State.kbdRead_withFile (s : State) (rs : RegFile) (c : Cond) :
    (s.withFile rs c).kbdRead = (s.kbdRead.1, s.kbdRead.2.withFile rs c) := by
  have h := s.kbdRead_withCore rs s.pc c s.outq s.hold
  rw [s.kbdRead_onlyInput] at h ⊢
  exact h

/-- A run of the loop changes memory, input and output alone. -/
theorem stringLoop_frame (f : Word → List Byte) (fuel : Nat) (a : Word) (s : State) :
    ∃ m : State, (stringLoop f fuel a s).1 =
      { s with mem := m.mem, inq := m.inq, arrivals := m.arrivals, later := m.later, outq := m.outq } := by
  rcases stringLoop_cases f fuel a s with ⟨t, e, h⟩ | ⟨b, t, e, h⟩ <;> rw [e]
  · exact ⟨t, prints_frame h⟩
  · exact ⟨t, printsOn_frame h⟩

theorem stringLoop_withFile (f : Word → List Byte) (fuel : Nat) (a : Word) (s : State) (rs : RegFile) (c : Cond) :
    stringLoop f fuel a (s.withFile rs c) = ((stringLoop f fuel a s).1.withFile rs c, (stringLoop f fuel a s).2) := by
  obtain ⟨bs, ho, h⟩ := stringLoop_withCore f fuel a s rs s.pc c s.outq s.hold
  obtain ⟨m, hm⟩ := stringLoop_frame f fuel a s
  rw [← ho] at h
  rw [hm] at h ⊢
  exact h

theorem State.stringService_withFile (s : State) (rs : RegFile) (c : Cond) (f : Word → List Byte) (held : Word → Hold)
    (a : Word) : (s.withFile rs c).stringService f held a = (s.stringService f held a).withFile rs c := by
  have hf : (s.withFile rs c).stringFuel = s.stringFuel := rfl
  rw [State.stringService, State.stringService, hf, stringLoop_withFile]
  rcases stringLoop f s.stringFuel a s with ⟨t, _ | b⟩ <;> rfl

/-! ### Two runs side by side -/

/-- `s'` differs from `s` in registers and flag alone. -/
def Twin (s s' : State) : Prop := ∃ rs c, s' = s.withFile rs c

/-- A run from `s` to `t` and one from `s'` to `t'` did the same: the ends differ in registers and flag alone, and each of
these is equal in both, or is what it was at the start of each run. -/
structure Tracks (s s' t t' : State) : Prop where
  twin : Twin t t'
  regs : ∀ r, t'.reg r = t.reg r ∨ (t.reg r = s.reg r ∧ t'.reg r = s'.reg r)
  cond : t'.cond = t.cond ∨ (t.cond = s.cond ∧ t'.cond = s'.cond)

theorem Twin.pc {s s' : State} (h : Twin s s') : s'.pc = s.pc := by
  obtain ⟨rs, c, rfl⟩ := h
  rfl

theorem Twin.pcRel9 {s s' : State} (h : Twin s s') (off9 : BitVec 9) : s'.pcRel9 off9 = s.pcRel9 off9 :=
  congrArg (· + _) h.pc

theorem Twin.pcRel11 {s s' : State} (h : Twin s s') (off11 : BitVec 11) : s'.pcRel11 off11 = s.pcRel11 off11 :=
  congrArg (· + _) h.pc

theorem Tracks.trans {s s' t t' u u' : State} (h : Tracks s s' t t') (h' : Tracks t t' u u') : Tracks s s' u u' where
  twin := h'.twin
  regs := fun r => by
    rcases h'.regs r with e | ⟨e, e'⟩
    · exact .inl e
    · rw [e, e']
      exact h.regs r
  cond := by
    rcases h'.cond with e | ⟨e, e'⟩
    · exact .inl e
    · rw [e, e']
      exact h.cond

/-- An operation that works alike whatever registers and flag are, and leaves them alone. -/
theorem Twin.tracks {s s' : State} (h : Twin s s') (f : State → State)
    (hf : ∀ rs c, f (s.withFile rs c) = (f s).withFile rs c) (hr : (f s).regs = s.regs) (hc : (f s).cond = s.cond) : Tracks s s' (f s) (f s') := by
  obtain ⟨rs, c, rfl⟩ := h
  rw [hf]
  exact ⟨⟨rs, c, rfl⟩, fun r => .inr ⟨congrArg (·.get r) hr, rfl⟩, .inr ⟨hc, rfl⟩⟩

theorem Twin.refl_tracks {s s' : State} (h : Twin s s') : Tracks s s' s s' := h.tracks (fun s => s) (fun _ _ => rfl) rfl rfl

theorem Twin.setPc {s s' : State} (h : Twin s s') (p : Word) : Tracks s s' (s.setPc p) (s'.setPc p) :=
  h.tracks (·.setPc p) (fun _ _ => rfl) rfl rfl

theorem Twin.memWrite {s s' : State} (h : Twin s s') (a v : Word) : Tracks s s' (s.memWrite a v) (s'.memWrite a v) :=
  h.tracks (·.memWrite a v) (fun _ _ => rfl) rfl rfl

theorem Twin.outBytes {s s' : State} (h : Twin s s') (bs : List Byte) : Tracks s s' (s.outBytes bs) (s'.outBytes bs) :=
  h.tracks (·.outBytes bs) (fun _ _ => rfl) rfl rfl

theorem Twin.raiseFault {s s' : State} (h : Twin s s') (c : FaultCause) (ir : Word) :
    Tracks s s' (s.raiseFault c ir) (s'.raiseFault c ir) :=
  h.tracks (·.raiseFault c ir) (fun _ _ => rfl) rfl rfl

theorem Twin.held {s s' : State} (h : Twin s s') (k : Hold) :
    Tracks s s' { s with hold := some k } { s' with hold := some k } :=
  h.tracks (fun s => { s with hold := some k }) (fun _ _ => rfl) rfl rfl

theorem Twin.haltService {s s' : State} (h : Twin s s') : Tracks s s' s.haltService s'.haltService :=
  h.tracks State.haltService (fun _ _ => rfl) rfl rfl

theorem Twin.stringService {s s' : State} (h : Twin s s') (f : Word → List Byte) (held : Word → Hold) (a : Word) :
    Tracks s s' (s.stringService f held a) (s'.stringService f held a) := by
  have hfr := (s.stringService_frame f held a).1
  exact h.tracks (·.stringService f held a) (fun rs c => s.stringService_withFile rs c f held a) (by rw [hfr]) (by rw [hfr])

/-- A read gives both runs the same word. -/
theorem Twin.memRead {s s' : State} (h : Twin s s') (a : Word) :
    (s'.memRead a).1 = (s.memRead a).1 ∧ Tracks s s' (s.memRead a).2 (s'.memRead a).2 := by
  refine ⟨?_, h.tracks (fun s => (s.memRead a).2) (fun rs c => congrArg Prod.snd (s.memRead_withFile rs c a))
    (s.memRead_regs a) (s.memRead_cond a)⟩
  obtain ⟨rs, c, rfl⟩ := h
  rw [State.memRead_withFile]

/-- The keyboard gives both runs the same byte, or none. -/
theorem Twin.kbdRead {s s' : State} (h : Twin s s') :
    s'.kbdRead.1 = s.kbdRead.1 ∧ Tracks s s' s.kbdRead.2 s'.kbdRead.2 := by
  refine ⟨?_, h.tracks (fun s => s.kbdRead.2) (fun rs c => congrArg Prod.snd (s.kbdRead_withFile rs c))
    (by rw [s.kbdRead_onlyInput]) (by rw [s.kbdRead_onlyInput])⟩
  obtain ⟨rs, c, rfl⟩ := h
  rw [State.kbdRead_withFile]

/-! ### The two writers of registers and flag -/

/-- A result makes its register and the flag equal in both runs. -/
theorem Twin.result {s s' : State} (h : Twin s s') (dr : Reg) (v : Word) :
    Tracks s s' (s.result dr v) (s'.result dr v) := by
  obtain ⟨rs, c, rfl⟩ := h
  refine ⟨⟨rs.set dr v, condOf v, rfl⟩, fun r => ?_, .inl rfl⟩
  by_cases hr : r = dr <;> simp [hr]

/-- The link makes R7 equal in both runs. -/
theorem Twin.link {s s' : State} (h : Twin s s') : Tracks s s' s.link s'.link := by
  obtain ⟨rs, c, rfl⟩ := h
  refine ⟨⟨rs.set .r7 s.pc, c, rfl⟩, fun r => ?_, .inr ⟨rfl, rfl⟩⟩
  by_cases hr : r = .r7
  · subst hr
    exact .inl rfl
  · simp [hr]

/-! ### Loads, services and the router -/

theorem Twin.loadFrom {s s' : State} (h : Twin s s') (dr : Reg) (ea : Word) :
    Tracks s s' (s.loadFrom dr ea) (s'.loadFrom dr ea) := by
  obtain ⟨hv, ht⟩ := h.memRead ea
  rw [State.loadFrom, State.loadFrom, hv]
  exact ht.trans (ht.twin.result dr _)

theorem Twin.getcService {s s' : State} (h : Twin s s') : Tracks s s' s.getcService s'.getcService := by
  obtain ⟨hb, ht⟩ := h.kbdRead
  unfold State.getcService
  rcases hs : s.kbdRead with ⟨b, t⟩
  rcases hs' : s'.kbdRead with ⟨b', t'⟩
  rw [hs, hs'] at hb ht
  obtain rfl : b' = b := hb
  cases b' with
  | none => exact ht.trans (ht.twin.held .getc)
  | some b => exact ht.trans (ht.twin.result .r0 _)

theorem Twin.inRead {s s' : State} (h : Twin s s') : Tracks s s' s.inRead s'.inRead := by
  obtain ⟨hb, ht⟩ := h.kbdRead
  unfold State.inRead
  rcases hs : s.kbdRead with ⟨b, t⟩
  rcases hs' : s'.kbdRead with ⟨b', t'⟩
  rw [hs, hs'] at hb ht
  obtain rfl : b' = b := hb
  cases b' with
  | none => exact ht.trans (ht.twin.held .inp)
  | some b =>
    have he := ht.trans (ht.twin.outBytes [b])
    exact he.trans (he.twin.result .r0 _)

/-- The router, when R0 is equal in both runs for the three services that read it. -/
theorem Twin.route {s s' : State} (h : Twin s s') (v : BitVec 8) (ir : Word)
    (h0 : v = 0x21 ∨ v = 0x22 ∨ v = 0x24 → s'.reg .r0 = s.reg .r0) : Tracks s s' (s.route v ir) (s'.route v ir) := by
  unfold State.route
  split_ifs with hgetc hout hputs hinp hputsp hhalt
  · exact h.getcService
  · rw [State.outService, State.outService, h0 (.inl hout)]
    exact h.outBytes _
  · rw [h0 (.inr (.inl hputs))]
    exact h.stringService _ _ _
  · exact (h.outBytes _).trans (h.outBytes _).twin.inRead
  · rw [h0 (.inr (.inr hputsp))]
    exact h.stringService _ _ _
  · exact h.haltService
  · exact h.raiseFault _ _

/-! ### The instructions -/

/-- An instruction that goes through the router saves the link first. -/
theorem exec_of_trapVector {i : Instr} {v : BitVec 8} (h : trapVector i = some v) (s : State) :
    exec i s = .next (s.link.route v (encode i)) := by
  cases i <;> simp only [trapVector, Option.some.injEq, reduceCtorEq] at h <;> subst h <;> rfl

/-- The register an instruction through the router reads, by its vector. -/
theorem reads_of_trapVector {i : Instr} {v : BitVec 8} (h : trapVector i = some v) :
    readsRegs i = if v = 0x21 ∨ v = 0x22 ∨ v = 0x24 then [.r0] else [] := by
  cases i <;> simp only [trapVector, Option.some.injEq, reduceCtorEq] at h <;> subst h <;> rfl

/-- Every instruction, in two states with equal contents in the registers it reads, and an equal flag if it is BR. -/
theorem exec_tracks {s s' : State} (h : Twin s s') {i : Instr} (hr : ∀ r ∈ readsRegs i, s'.reg r = s.reg r)
    (hc : (∃ nzp off9, i = .br nzp off9) → s'.cond = s.cond) :
    ∃ t t', exec i s = .next t ∧ exec i s' = .next t' ∧ Tracks s s' t t' := by
  cases hv : trapVector i with
  | some v =>
    refine ⟨_, _, exec_of_trapVector hv s, exec_of_trapVector hv s', h.link.trans (h.link.twin.route v _ fun hv0 => ?_)⟩
    have h0 : s'.reg .r0 = s.reg .r0 := hr .r0 (by rw [reads_of_trapVector hv, if_pos hv0]; exact List.mem_cons_self)
    rw [State.reg_link, State.reg_link, h.pc, h0]
  | none =>
    cases i
    case trap | getc | out | puts | inp | putsp | halt => exact nomatch hv
    all_goals
      refine ⟨_, _, rfl, rfl, ?_⟩
      simp only [readsRegs, List.forall_mem_cons, List.not_mem_nil, false_imp_iff, implies_true, and_true] at hr
    case addR dr sr1 u sr2 | andR dr sr1 u sr2 =>
      rw [hr.1, hr.2]
      exact h.result dr _
    case addI dr sr1 imm5 | andI dr sr1 imm5 | not dr sr1 u =>
      rw [hr]
      exact h.result dr _
    case lea dr off9 =>
      rw [h.pcRel9]
      exact h.result dr _
    case ld dr off9 =>
      rw [h.pcRel9]
      exact h.loadFrom dr _
    case ldi dr off9 =>
      obtain ⟨hp, ht⟩ := h.memRead (s.pcRel9 off9)
      rw [h.pcRel9, hp]
      exact ht.trans (ht.twin.loadFrom dr _)
    case ldr dr baseR off6 =>
      rw [State.baseOff6, State.baseOff6, hr]
      exact h.loadFrom dr _
    case st sr off9 =>
      rw [h.pcRel9, hr]
      exact h.memWrite _ _
    case sti sr off9 =>
      obtain ⟨hp, ht⟩ := h.memRead (s.pcRel9 off9)
      rw [h.pcRel9, hp, State.memRead_reg, State.memRead_reg, hr]
      exact ht.trans (ht.twin.memWrite _ _)
    case str sr baseR off6 =>
      rw [State.baseOff6, State.baseOff6, hr.1, hr.2]
      exact h.memWrite _ _
    case br nzp off9 =>
      rw [hc ⟨nzp, off9, rfl⟩, h.pcRel9]
      split
      · exact h.setPc _
      · exact h.refl_tracks
    case jmp u baseR u' =>
      rw [hr]
      exact h.setPc _
    case jsr off11 =>
      rw [h.pcRel11]
      exact h.link.trans (h.link.twin.setPc _)
    case jsrr u baseR u' =>
      rw [State.reg_link, State.reg_link, h.pc, hr]
      exact h.link.trans (h.link.twin.setPc _)
    case rti u | res u => exact h.raiseFault _ _

/-- The same for a next state that is given. -/
theorem exec_next_tracks {s s' t : State} (h : Twin s s') {i : Instr} (hr : ∀ r ∈ readsRegs i, s'.reg r = s.reg r)
    (hc : (∃ nzp off9, i = .br nzp off9) → s'.cond = s.cond) (hx : exec i s = .next t) :
    ∃ t', exec i s' = .next t' ∧ Tracks s s' t t' := by
  obtain ⟨u, u', e, e', ht⟩ := exec_tracks h hr hc
  obtain rfl := exec_unique hx e
  exact ⟨u', e', ht⟩

/-- Settles O52: the two runs differ in one register and in nothing else. -/
theorem registersReadAsListed : Obligations.RegistersReadAsListed := by
  intro i s t r v hr hx
  have hreg (q : Reg) (hq : q ≠ r) : (s.setReg r v).reg q = s.reg q := by rw [State.reg_setReg, if_neg hq]
  have htwin : Twin s (s.setReg r v) := ⟨s.regs.set r v, s.cond, rfl⟩
  obtain ⟨t', e, ⟨rs, c, rfl⟩, hregs, hcond⟩ :=
    exec_next_tracks htwin (fun q hq => hreg q (ne_of_mem_of_not_mem hq hr)) (fun _ => rfl) hx
  refine ⟨_, e, fun q hq => ?_, ?_, ?_⟩
  · rcases hregs q with h | ⟨h, h'⟩
    · exact h
    · rw [h', h, hreg q (by simpa using hq)]
  · exact (hregs r).imp_right fun h => h.2.trans ((s.reg_setReg r r v).trans (if_pos rfl))
  · obtain rfl : c = t.cond := hcond.elim id fun h => h.2.trans h.1.symm
    rfl

/-- Settles O53: the two runs differ in the flag and in nothing else. -/
theorem flagReadOnlyByBr : Obligations.FlagReadOnlyByBr := by
  intro i s t c hbr hx
  have htwin : Twin s { s with cond := c } := ⟨s.regs, c, rfl⟩
  obtain ⟨t', e, ⟨rs, c', rfl⟩, hregs, hcond⟩ :=
    exec_next_tracks htwin (fun _ _ => rfl) (fun ⟨nzp, off9, hi⟩ => absurd hi (hbr nzp off9)) hx
  obtain rfl : rs = t.regs := RegFile.ext_get fun r => (hregs r).elim id fun h => h.2.trans h.1.symm
  exact ⟨_, e, rfl, hcond⟩

end Sys2Proof.Machine
end

section
/-! SUPPORT. Memory (20_memory.md R52 to R55, R58, R59): one write, one read, and what every instruction but a store leaves of
it: the memory that reads alone leave. -/

namespace Sys2Proof.Machine

open Sys2Proof.Safety

/-! ### One write and one read -/

/-- Settles O14: the read-after-write law of canonical memories, of the one field a write changes. -/
theorem cellWriteThenRead : Obligations.CellWriteThenRead := fun _ a b v hw => ⟨State.cell_setCell hw a b v, rfl⟩

theorem State.arrive_wf {s : State} (h : s.mem.wf = true) : s.arrive.mem.wf = true := by
  rw [onlyInput_arrive s]
  exact h

@[simp] theorem State.arrive_cell (s : State) (a : Word) : s.arrive.cell a = s.cell a := by
  rw [onlyInput_arrive s]
  rfl

/-- What is pending at a poll is what is pending once the environment has acted. -/
theorem upcoming_one (s : State) : upcoming s 1 = s.arrive.inq := by rw [← upcoming_zero, upcoming_arrive]

/-- The cells after a poll with nothing pending: KBSR is 0 (20_memory.md R53). -/
theorem State.kbsrPoll_cell_empty {s : State} (hw : s.mem.wf = true) (hq : s.arrive.inq = []) (c : Word) :
    s.kbsrPoll.cell c = if c = Config.kbsrAddr then 0 else s.cell c := by
  rcases s.kbsrPoll_cases with ⟨-, e⟩ | ⟨b, rest, hq', -⟩
  · rw [e, State.cell_setCell (State.arrive_wf hw), State.arrive_cell]
  · rw [hq] at hq'
    cases hq'

/-- The cells after a poll with the byte `b` pending: KBSR is 0x8000 and KBDR holds the byte (20_memory.md R53). -/
theorem State.kbsrPoll_cell_ready {s : State} (hw : s.mem.wf = true) {b : Byte} {rest : List Byte}
    (hq : s.arrive.inq = b :: rest) (c : Word) :
    s.kbsrPoll.cell c = if c = Config.kbdrAddr then zext16 b else if c = Config.kbsrAddr then 0x8000 else s.cell c := by
  rcases s.kbsrPoll_cases with ⟨hq', -⟩ | ⟨b', rest', hq', e⟩
  · rw [hq] at hq'
    cases hq'
  · obtain ⟨rfl, rfl⟩ := List.cons.inj (hq.symm.trans hq')
    have hwi : ({ s.arrive with inq := rest } : State).mem.wf = true := State.arrive_wf hw
    rw [e, State.cell_setCell (State.wf_setCell hwi _ _), State.cell_setCell hwi,
      show State.cell { s.arrive with inq := rest } c = s.cell c from s.arrive_cell c]

/-- Settles O17: away from KBSR a read changes nothing, and at KBSR it is the poll, with or without a byte pending. -/
theorem memReadPollsOnlyKbsr : Obligations.MemReadPollsOnlyKbsr := fun s a hw =>
  { plain := fun ha => by
      rw [State.memRead_plain ha]
      exact ⟨rfl, fun _ => rfl, rfl, rfl, rfl⟩
    empty := by
      rintro rfl hup
      rw [upcoming_one] at hup
      have hcell := State.kbsrPoll_cell_empty hw hup
      rw [show (0xFE00 : Word) = Config.kbsrAddr from rfl, State.memRead_kbsr]
      refine ⟨by simp [hcell], by simp [hcell], fun c hc => ?_, s.kbsrPoll_moved.1 hup⟩
      rw [hcell, if_neg (by simpa using hc)]
    ready := by
      rintro rfl b rest hup
      rw [upcoming_one] at hup
      have hcell := State.kbsrPoll_cell_ready hw hup
      have hkbsr : s.kbsrPoll.cell Config.kbsrAddr = 0x8000 := by simp [hcell, Config.kbsrAddr, Config.kbdrAddr]
      have hkbdr : s.kbsrPoll.cell Config.kbdrAddr = zext16 b := by simp [hcell]
      rw [show (0xFE00 : Word) = Config.kbsrAddr from rfl, State.memRead_kbsr]
      refine ⟨hkbsr, hkbsr, ?_, fun c hc => ?_, s.kbsrPoll_moved.2 b rest hup⟩
      · exact (congrArg BitVec.toNat hkbdr).trans (toNat_zext16 b)
      · obtain ⟨hs, hd⟩ : c ≠ Config.kbsrAddr ∧ c ≠ Config.kbdrAddr := by simpa [Config.kbdrAddr] using hc
        rw [hcell, if_neg hd, if_neg hs]
    frame := ⟨fun r _ => s.memRead_reg a r, s.memRead_pc a, s.memRead_cond a,
      ⟨s.memRead_status a, s.memRead_fault a, s.memRead_hold a⟩, s.memRead_outq a⟩ }

/-! ### Cells that reads can change -/

/-- One read changes at most KBSR and KBDR. -/
theorem memKeptBut_of_reads {a v : Word} {s m : State} (h : Reads a s v m) : MemKeptBut [0xFE00, 0xFE02] s m := by
  by_cases ha : a = 0xFE00
  · cases hq : upcoming s 1 with
    | nil =>
      obtain ⟨-, -, hk, -⟩ := h.empty ha hq
      exact fun c hc => hk c fun hm => hc (List.mem_append_left [0xFE02] hm)
    | cons b rest =>
      obtain ⟨-, -, -, hk, -⟩ := h.ready ha b rest hq
      exact hk
  · obtain ⟨-, hk, -⟩ := h.plain ha
    exact fun c _ => hk c

/-- Reads, one after another, change at most KBSR and KBDR. -/
theorem memKeptBut_afterReads {s m : State} (h : AfterReads s m) (hw : s.mem.wf = true) :
    MemKeptBut [0xFE00, 0xFE02] s m := by
  induction h with
  | none => exact fun _ _ => rfl
  | @read m a hr ih =>
    have hm := memKeptBut_of_reads (memReadPollsOnlyKbsr m a (afterReads_wf hr hw))
    exact fun c hc => (hm c hc).trans (ih c hc)

/-! ### The string loop's reads -/

/-- `t` has the memory and the environment that some reads from `s` leave, with registers, `pc`, flag, output and hold of its
own. -/
def MemReached (s t : State) : Prop :=
  ∃ m, AfterReads s m ∧ ∃ rs p c o h, t = m.withCore rs p c o h

theorem MemReached.memKept {s t : State} (h : MemReached s t) : ∃ m, AfterReads s m ∧ MemKept m t := by
  obtain ⟨m, hm, rs, p, c, o, k, rfl⟩ := h
  exact ⟨m, hm, fun _ => rfl⟩

theorem MemReached.withCore {s t : State} (h : MemReached s t) (rs : RegFile) (p : Word) (c : Cond) (o : List Byte)
    (k : Option Hold) : MemReached s (t.withCore rs p c o k) := by
  obtain ⟨m, hm, -, -, -, -, -, rfl⟩ := h
  exact ⟨m, hm, rs, p, c, o, k, rfl⟩

theorem MemReached.refl (s : State) : MemReached s s := ⟨s, .none, s.regs, s.pc, s.cond, s.outq, s.hold, rfl⟩

theorem MemReached.link (s : State) : MemReached s s.link := (MemReached.refl s).withCore _ s.pc s.cond s.outq s.hold

theorem MemReached.memRead {s t : State} (h : MemReached s t) (a : Word) : MemReached s (t.memRead a).2 := by
  obtain ⟨m, hm, rs, p, c, o, k, rfl⟩ := h
  rw [State.memRead_withCore]
  exact ⟨_, hm.read a, rs, p, c, o, k, rfl⟩

theorem MemReached.outBytes {s t : State} (h : MemReached s t) (bs : List Byte) : MemReached s (t.outBytes bs) :=
  h.withCore t.regs t.pc t.cond (t.outq ++ bs) t.hold

theorem MemReached.prints {f : Word → List Byte} {a : Word} {s t u : State} (h : MemReached s t) (hp : Prints f a t u) :
    MemReached s u := by
  induction hp with
  | @stop a t _ => exact h.memRead a
  | @more a t u _ _ ih => exact ih ((h.memRead a).outBytes _)

theorem MemReached.printsOn {f : Word → List Byte} {n : Nat} {a b : Word} {s t u : State} (h : MemReached s t)
    (hp : PrintsOn f n a t b u) : MemReached s u := by
  induction hp with
  | here => exact h
  | @more n a b t u _ _ ih => exact ih ((h.memRead a).outBytes _)

theorem MemReached.stringService {s t : State} (h : MemReached s t) (f : Word → List Byte) (held : Word → Hold) (a : Word) :
    MemReached s (t.stringService f held a) := by
  rcases t.stringService_cases f held a with hp | ⟨b, m, hp, e⟩
  · exact h.prints hp
  · rw [e]
    exact (h.printsOn hp).withCore m.regs m.pc m.cond m.outq _

/-! ### The other services -/

theorem memKept_getcService (s : State) : MemKept s s.getcService := by
  rcases s.getcService_cases with ⟨b, t, k, e, ho, -⟩ | ⟨t, e, ho, -⟩ <;> rw [e, ho] <;> exact fun _ => rfl

theorem memKept_inRead (s : State) : MemKept s s.inRead := by
  rcases s.inRead_cases with ⟨b, t, k, e, ho, -⟩ | ⟨t, e, ho, -⟩ <;> rw [e, ho] <;> exact fun _ => rfl

/-- What the router does to memory: nothing, but for the two vectors of the string services. -/
theorem State.route_memory (s : State) (v : BitVec 8) (ir : Word) :
    MemKept s (s.route v ir) ∨
    ((v = 0x22 ∨ v = 0x24) ∧ ∃ f held a, s.route v ir = s.stringService f held a) := by
  rcases s.route_cases v ir with ⟨-, e⟩ | ⟨-, e⟩ | ⟨hv, e⟩ | ⟨-, e⟩ | ⟨hv, e⟩ | ⟨-, e⟩ | ⟨-, e⟩ <;> rw [e]
  · exact .inl (memKept_getcService s)
  · exact .inl fun _ => rfl
  · exact .inr ⟨.inl hv, _, _, _, rfl⟩
  · exact .inl (memKept_inRead (s.outBytes Config.inPrompt))
  · exact .inr ⟨.inr hv, _, _, _, rfl⟩
  · exact .inl fun _ => rfl
  · exact .inl fun _ => rfl

/-! ### Every instruction but a store -/

/-- An instruction that goes through the router reads memory exactly at the vectors of the two string services. -/
theorem readsMemory_of_trapVector {i : Instr} {v : BitVec 8} (h : trapVector i = some v) :
    readsMemory i = decide (v = 0x22 ∨ v = 0x24) := by
  cases i <;> simp only [trapVector, Option.some.injEq, reduceCtorEq] at h <;> subst h <;> rfl

/-- An instruction that is no store leaves the cells as some reads leave them, none if it is not one that reads. -/
theorem exec_memory {i : Instr} {s t : State} (hi : isStore i = false) (hx : exec i s = .next t) :
    ∃ m, AfterReads s m ∧ MemKept m t ∧ (readsMemory i = false → m = s) := by
  rcases exec_cases i s with ⟨m, dr, v, hm, -, -, -, -, -, hr, e⟩ | ⟨m, ea, v, -, hst, -⟩ | ⟨p, -, -, e | ⟨-, e⟩⟩ |
    ⟨v, hv, e⟩ | ⟨u, -, e⟩
  case inr.inl => exact absurd hst (by simp [hi])
  all_goals obtain rfl := exec_unique hx e
  · exact ⟨m, hm, fun _ => rfl, hr⟩
  · exact ⟨s, .none, fun _ => rfl, fun _ => rfl⟩
  · exact ⟨s, .none, fun _ => rfl, fun _ => rfl⟩
  · rcases s.link.route_memory v (encode i) with hk | ⟨hstr, f, held, a, e'⟩
    · exact ⟨s, .none, hk, fun _ => rfl⟩
    · obtain ⟨m, hm, hk⟩ := ((MemReached.link s).stringService f held a).memKept
      refine ⟨m, hm, e' ▸ hk, fun hr => ?_⟩
      rw [readsMemory_of_trapVector hv] at hr
      exact absurd hstr (of_decide_eq_false hr)
  · exact ⟨s, .none, fun _ => rfl, fun _ => rfl⟩

/-- Settles O54, from the reads an instruction makes: none leave every cell, and any leave all but KBSR and KBDR. -/
theorem onlyStoresWriteMemory : Obligations.OnlyStoresWriteMemory := by
  intro i s t hi hx
  obtain ⟨m, hm, hk, hr⟩ := exec_memory hi hx
  refine ⟨fun h => ?_, ⟨m, hm, hk⟩, fun hw c hc => ?_⟩
  · obtain rfl := hr h
    exact hk
  · exact (hk c).trans (memKeptBut_afterReads hm hw c hc)

end Sys2Proof.Machine
end

section
/-! SUPPORT. A store into the next instruction's cell (20_memory.md R65): the word of a store decodes to the store, and a cell
written is the one the next fetch reads. -/

namespace Sys2Proof.Machine

open Sys2Proof.Safety
open Sys2Proof.Laws.Opcode (opcode)

/-- The opcodes 3, 7 and 11 have one form each. -/
theorem store_of_opcode (i : Instr) :
    (opcode i = 3 → ∃ sr off9, i = .st sr off9) ∧ (opcode i = 7 → ∃ sr baseR off6, i = .str sr baseR off6) ∧
    (opcode i = 11 → ∃ sr off9, i = .sti sr off9) := by
  cases i <;> simp [opcode]

/-- The register and the offset below an opcode's share `k` of a word's number are determined by the number. -/
theorem register_off9_inj {k : Nat} {r q : Reg} {x y : BitVec 9}
    (h : k + regNum r * 512 + x.toNat = k + regNum q * 512 + y.toNat) : r = q ∧ x = y :=
  ⟨regNum_inj (by omega), BitVec.eq_of_toNat_eq (by omega)⟩

/-- A store is the only instruction with its word: the opcode gives the form, the rest of the word the fields. -/
theorem eq_store_of_encode_eq {i j : Instr} (hi : isStore i = true) (h : encode j = encode i) : j = i := by
  have hop : opcode j = opcode i := by rw [← bits_encode_opcode, ← bits_encode_opcode, h]
  have hn : encodeNum j = encodeNum i := by rw [← encode_toNat, ← encode_toNat, h]
  obtain ⟨hst, hstr, hsti⟩ := store_of_opcode j
  cases i
  case st sr off9 =>
    obtain ⟨sr', off9', rfl⟩ := hst hop
    obtain ⟨rfl, rfl⟩ := register_off9_inj hn
    rfl
  case str sr baseR off6 =>
    obtain ⟨sr', baseR', off6', rfl⟩ := hstr hop
    simp only [encodeNum] at hn
    have hlt := regNum_lt baseR
    have hlt' := regNum_lt baseR'
    have hreg : regNum sr' = regNum sr := by omega
    have hbase : regNum baseR' = regNum baseR := by omega
    have hoff : off6'.toNat = off6.toNat := by omega
    rw [regNum_inj hreg, regNum_inj hbase, BitVec.eq_of_toNat_eq hoff]
  case sti sr off9 =>
    obtain ⟨sr', off9', rfl⟩ := hsti hop
    obtain ⟨rfl, rfl⟩ := register_off9_inj hn
    rfl
  all_goals exact nomatch hi

/-- The word of a store decodes to the store. -/
theorem decode_encode_store {i : Instr} (hi : isStore i = true) : decode (encode i) = i :=
  eq_store_of_encode_eq hi (encode_decode (encode i))

/-- After a write of `v` to the cell at `pc`, a step of a core ready for one runs `v`. -/
theorem step_memWrite_pc {m : State} (hw : m.mem.wf = true) (hs : m.status = .running) (hh : m.hold = none)
    (hpc : m.pc ≠ Config.kbsrAddr) (v : Word) :
    step (m.memWrite m.pc v) = exec (decode v) { m.memWrite m.pc v with pc := m.pc + 1 } := by
  have hcell : (m.memWrite m.pc v).cell m.pc = v := (State.cell_setCell hw _ _ _).trans (if_pos rfl)
  rw [step_running (s := m.memWrite m.pc v) hs hh, State.fetch_plain (s := m.memWrite m.pc v) hpc, State.memWrite_pc,
    hcell]
  rfl

/-- What a read answers does not depend on `pc`. -/
theorem State.memRead_setPc_fst (s : State) (p a : Word) : ((s.setPc p).memRead a).1 = (s.memRead a).1 :=
  congrArg (·.1) (s.memRead_withCore a s.regs p s.cond s.outq s.hold)

/-! ### The three stores -/

theorem exec_st (sr : Reg) (off9 : BitVec 9) (s : State) :
    exec (.st sr off9) s = .next (s.memWrite (s.pcRel9 off9) (s.reg sr)) := rfl

theorem exec_str (sr baseR : Reg) (off6 : BitVec 6) (s : State) :
    exec (.str sr baseR off6) s = .next (s.memWrite (s.baseOff6 baseR off6) (s.reg sr)) := rfl

/-- STI's pointer read changes no register. -/
theorem exec_sti (sr : Reg) (off9 : BitVec 9) (s : State) : exec (.sti sr off9) s =
    .next ((s.memRead (s.pcRel9 off9)).2.memWrite (s.memRead (s.pcRel9 off9)).1 (s.reg sr)) := by
  rw [← s.memRead_reg (s.pcRel9 off9) sr]
  rfl

/-- Settles O56: after some reads the store writes the register into the cell at the incremented `pc`, which the next step
fetches. -/
theorem storeIsSeenByNextFetch : Obligations.StoreIsSeenByNextFetch := by
  intro s sr baseR off9 off6 i hw hs hh hpc hpc' hcell hform
  have hstore : isStore i = true := by rcases hform with ⟨rfl, -⟩ | ⟨rfl, -⟩ | ⟨rfl, -⟩ <;> rfl
  have hexec : ∃ m, AfterReads (s.setPc (s.pc + 1)) m ∧
      exec i (s.setPc (s.pc + 1)) = .next (m.memWrite (s.pc + 1) (s.reg sr)) := by
    rcases hform with ⟨rfl, hea⟩ | ⟨rfl, hea⟩ | ⟨rfl, hea⟩
    · exact ⟨_, .none, by rw [exec_st, hea, State.reg_setPc]⟩
    · exact ⟨_, .none, by rw [exec_str, ← hea]; rfl⟩
    · exact ⟨_, .read _ .none, by rw [exec_sti, State.memRead_setPc_fst, hea, State.reg_setPc]⟩
  obtain ⟨m, hm, hx⟩ := hexec
  have hstep : step s = .next (m.memWrite (s.pc + 1) (s.reg sr)) := by
    rw [step_running hs hh, State.fetch_plain hpc, hcell, decode_encode_store hstore, hx]
  have hmw : m.mem.wf = true := afterReads_wf hm hw
  have hme := afterReads_eq hm
  have hmpc : m.pc = s.pc + 1 := by rw [hme]; rfl
  have hms : m.status = .running := by rw [hme]; exact hs
  have hmh : m.hold = none := by rw [hme]; exact hh
  refine ⟨_, hstep, hmpc, ?_⟩
  have h2 : s.pc + 2 = m.pc + 1 := by rw [hmpc, BitVec.add_assoc]; rfl
  rw [h2, ← hmpc]
  exact step_memWrite_pc hmw hms hmh (hmpc ▸ hpc') _

end Sys2Proof.Machine
end

section
/-! SUPPORT. The decoder against the encoder (30_encoding.md R81, R85): an instruction is what a word decodes to exactly when
the word has the instruction's number, from which the rows of the table follow field by field. -/

namespace Sys2Proof

open Sys2Proof.Safety Sys2Proof.Machine
open Sys2Proof.Laws.Opcode (opcode)

/-! ### Fields read from the word's number -/

/-- The four bits the decoder looks at are those of the opcode. -/
theorem getLsbD_of_opcode {w : Word} {n : Nat} (h : bits w 15 12 = n) :
    w.getLsbD 15 = decide (n / 8 % 2 = 1) ∧ w.getLsbD 14 = decide (n / 4 % 2 = 1) ∧
    w.getLsbD 13 = decide (n / 2 % 2 = 1) ∧ w.getLsbD 12 = decide (n % 2 = 1) := by
  subst h
  simp only [getLsbD_eq_decide, decide_eq_decide]
  rw [bits]
  omega

/-- A field, from the word's number. -/
theorem extract_eq_iff {w : Word} {lo len : Nat} {x : BitVec len} :
    w.extractLsb' lo len = x ↔ w.toNat / 2 ^ lo % 2 ^ len = x.toNat := by
  rw [← BitVec.toNat_inj, extract_toNat]

/-- A register field, from the word's number. -/
theorem ofField_extract_eq_iff {w : Word} {lo : Nat} {r : Reg} :
    Reg.ofField (w.extractLsb' lo 3) = r ↔ w.toNat / 2 ^ lo % 2 ^ 3 = r.toField.toNat := by
  rw [← extract_eq_iff]
  exact ⟨fun h => by rw [← h, Reg.toField_ofField], fun h => by rw [h, Reg.ofField_toField]⟩

/-! ### The TRAP words -/

/-- The six defined vectors, one by one. -/
theorem isServiceVector_iff_eq (v : BitVec 8) : isServiceVector v = true ↔
    v = 0x20 ∨ v = 0x21 ∨ v = 0x22 ∨ v = 0x23 ∨ v = 0x24 ∨ v = 0x25 := by
  simp only [isServiceVector_iff, ← BitVec.toNat_inj, BitVec.reduceToNat]
  omega

/-- A TRAP word with none of the six vectors is in the TRAP row itself. -/
theorem decodeTrap_of_other {w : Word} (h : isServiceVector (w.extractLsb' 0 8) = false) :
    decodeTrap w = .trap (w.extractLsb' 8 4) (w.extractLsb' 0 8) := by
  have hne := mt (isServiceVector_iff_eq _).mpr (Bool.eq_false_iff.mp h)
  simp only [not_or] at hne
  simp only [decodeTrap, hne, if_false]

theorem wellFormed_decodeTrap (w : Word) : (decodeTrap w).wellFormed = true := by
  cases h : isServiceVector (w.extractLsb' 0 8) with
  | true => rcases (isServiceVector_iff_eq _).mp h with h | h | h | h | h | h <;> rw [decodeTrap, h] <;> rfl
  | false =>
    rw [decodeTrap_of_other h, Instr.wellFormed, h]
    rfl

/-- The word of an instruction with a vector goes back to it: the vector gives the row, bits 11:8 the rest. -/
theorem decodeTrap_encode {i : Instr} {v : BitVec 8} (h : trapVector i = some v) (hi : i.wellFormed = true) :
    decodeTrap (encode i) = i := by
  have hv : (encode i).extractLsb' 0 8 = v := extract_eq_iff.mpr (trapVector_bits h).2
  have hn := encode_toNat i
  generalize encode i = w at hv hn
  cases i <;> simp only [trapVector, Option.some.injEq, reduceCtorEq] at h <;> subst h
  case trap u v =>
    have hs : isServiceVector v = false := by simpa [Instr.wellFormed] using hi
    have hu : w.extractLsb' 8 4 = u := extract_eq_iff.mpr (by rw [hn, encodeNum]; omega)
    rw [decodeTrap_of_other (hv ▸ hs), hv, hu]
  case getc u | out u | puts u | inp u | putsp u | halt u =>
    have hu : w.extractLsb' 8 4 = u := extract_eq_iff.mpr (by rw [hn, encodeNum]; omega)
    rw [decodeTrap, hv, hu]
    rfl

/-! ### Every word -/

/-- Every word decodes to an instruction that is written in its own row. -/
theorem wellFormed_decode (w : Word) : (decode w).wellFormed = true := by
  unfold decode
  split
  case h_16 => exact wellFormed_decodeTrap w
  case h_2 | h_5 | h_6 => split <;> rfl
  all_goals rfl

/-- Settles O2: a decoded instruction is in the form of its own row, and its fields make up the word. -/
theorem everyWordDecodesAndEncodesBack : Obligations.EveryWordDecodesAndEncodesBack := fun w =>
  ⟨wellFormed_decode w, encode_decode w⟩

/-! ### Every instruction -/

/-- The word of a well-formed instruction decodes to it: the opcode gives the row, the mode bit the form, and the number of
the word each operand. -/
theorem decode_encode {i : Instr} (hi : i.wellFormed = true) : decode (encode i) = i := by
  obtain ⟨h15, h14, h13, h12⟩ := getLsbD_of_opcode (bits_encode_opcode i)
  rw [decode, h15, h14, h13, h12]
  cases hv : trapVector i with
  | some v =>
    rw [(trapVector_bits hv).1]
    exact decodeTrap_encode hv hi
  | none =>
    have hn := encode_toNat i
    generalize encode i = w at hn
    cases i
    case trap | getc | out | puts | inp | putsp | halt => exact nomatch hv
    all_goals
      simp only [encodeNum, regNum_eq] at hn
      simp only [opcode, Nat.reduceDiv, Nat.reduceMod, Nat.reduceEqDiff, decide_true, decide_false, getLsbD_eq_decide,
        decide_eq_true_eq]
    case addR | andR | jsrr =>
      rw [if_neg (by omega)]
      simp only [Instr.addR.injEq, Instr.andR.injEq, Instr.jsrr.injEq, fieldDR, fieldSR1, fieldSR2, ofField_extract_eq_iff,
        extract_eq_iff]
      omega
    case addI | andI | jsr =>
      rw [if_pos (by omega)]
      simp only [Instr.addI.injEq, Instr.andI.injEq, Instr.jsr.injEq, fieldDR, fieldSR1, ofField_extract_eq_iff,
        extract_eq_iff]
      omega
    all_goals
      simp only [Instr.not.injEq, Instr.ld.injEq, Instr.ldi.injEq, Instr.lea.injEq, Instr.st.injEq, Instr.sti.injEq,
        Instr.ldr.injEq, Instr.str.injEq, Instr.br.injEq, Instr.jmp.injEq, Instr.rti.injEq, Instr.res.injEq,
        fieldDR, fieldSR1, ofField_extract_eq_iff, extract_eq_iff]
      omega

/-- Settles O1, by the opcode and the mode bit, then field by field. -/
theorem decodeEncodeRoundTrip : Obligations.DecodeEncodeRoundTrip := fun _ hi => decode_encode hi

/-- What a word decodes to, from its number. -/
theorem decode_eq_iff {w : Word} {i : Instr} : decode w = i ↔ i.wellFormed = true ∧ w.toNat = encodeNum i := by
  constructor
  · rintro rfl
    exact ⟨wellFormed_decode w, (encodeNum_decode w).symm⟩
  · rintro ⟨hi, hn⟩
    rw [← encode_toNat, BitVec.toNat_inj] at hn
    rw [hn, decode_encode hi]

/-! ### The rows of the table -/

@[simp] theorem hasFields_nil (w : Word) : HasFields w [] ↔ True := iff_of_true nofun trivial

@[simp] theorem hasFields_cons (w : Word) (hi lo v : Nat) (fields : List (Nat × Nat × Nat)) :
    HasFields w ((hi, lo, v) :: fields) ↔ bits w hi lo = v ∧ HasFields w fields := List.forall_mem_cons

/-- The fields of an instruction's word, as its row of the table has them (30_encoding.md R85). -/
def rowFields : Instr → List (Nat × Nat × Nat)
  | .addR dr sr1 unread sr2 =>
    [(15, 12, 1), (11, 9, regNum dr), (8, 6, regNum sr1), (5, 5, 0), (4, 3, unread.toNat), (2, 0, regNum sr2)]
  | .addI dr sr1 imm5 => [(15, 12, 1), (11, 9, regNum dr), (8, 6, regNum sr1), (5, 5, 1), (4, 0, imm5.toNat)]
  | .andR dr sr1 unread sr2 =>
    [(15, 12, 5), (11, 9, regNum dr), (8, 6, regNum sr1), (5, 5, 0), (4, 3, unread.toNat), (2, 0, regNum sr2)]
  | .andI dr sr1 imm5 => [(15, 12, 5), (11, 9, regNum dr), (8, 6, regNum sr1), (5, 5, 1), (4, 0, imm5.toNat)]
  | .not dr sr1 unread => [(15, 12, 9), (11, 9, regNum dr), (8, 6, regNum sr1), (5, 0, unread.toNat)]
  | .ld dr off9 => [(15, 12, 2), (11, 9, regNum dr), (8, 0, off9.toNat)]
  | .ldi dr off9 => [(15, 12, 10), (11, 9, regNum dr), (8, 0, off9.toNat)]
  | .lea dr off9 => [(15, 12, 14), (11, 9, regNum dr), (8, 0, off9.toNat)]
  | .st sr off9 => [(15, 12, 3), (11, 9, regNum sr), (8, 0, off9.toNat)]
  | .sti sr off9 => [(15, 12, 11), (11, 9, regNum sr), (8, 0, off9.toNat)]
  | .ldr dr baseR off6 => [(15, 12, 6), (11, 9, regNum dr), (8, 6, regNum baseR), (5, 0, off6.toNat)]
  | .str sr baseR off6 => [(15, 12, 7), (11, 9, regNum sr), (8, 6, regNum baseR), (5, 0, off6.toNat)]
  | .br nzp off9 => [(15, 12, 0), (11, 9, nzp.toNat), (8, 0, off9.toNat)]
  | .jmp unreadHi baseR unreadLo =>
    [(15, 12, 12), (11, 9, unreadHi.toNat), (8, 6, regNum baseR), (5, 0, unreadLo.toNat)]
  | .jsr off11 => [(15, 12, 4), (11, 11, 1), (10, 0, off11.toNat)]
  | .jsrr unreadHi baseR unreadLo =>
    [(15, 12, 4), (11, 11, 0), (10, 9, unreadHi.toNat), (8, 6, regNum baseR), (5, 0, unreadLo.toNat)]
  | .trap unread vect8 => [(15, 12, 15), (11, 8, unread.toNat), (7, 0, vect8.toNat)]
  | .getc unread => [(15, 12, 15), (11, 8, unread.toNat), (7, 0, 0x20)]
  | .out unread => [(15, 12, 15), (11, 8, unread.toNat), (7, 0, 0x21)]
  | .puts unread => [(15, 12, 15), (11, 8, unread.toNat), (7, 0, 0x22)]
  | .inp unread => [(15, 12, 15), (11, 8, unread.toNat), (7, 0, 0x23)]
  | .putsp unread => [(15, 12, 15), (11, 8, unread.toNat), (7, 0, 0x24)]
  | .halt unread => [(15, 12, 15), (11, 8, unread.toNat), (7, 0, 0x25)]
  | .rti unread => [(15, 12, 8), (11, 0, unread.toNat)]
  | .res unread => [(15, 12, 13), (11, 0, unread.toNat)]

/-- The fields of a row cover the word, so they hold of the one word with the instruction's number. -/
theorem hasFields_rowFields (w : Word) (i : Instr) : HasFields w (rowFields i) ↔ w.toNat = encodeNum i := by
  cases i <;> simp only [rowFields, encodeNum, regNum_eq, hasFields_cons, hasFields_nil, bits, and_true] <;> omega

/-- What a word decodes to, from its fields. -/
theorem decode_eq_iff_hasFields {w : Word} {i : Instr} :
    decode w = i ↔ i.wellFormed = true ∧ HasFields w (rowFields i) := by
  rw [decode_eq_iff, hasFields_rowFields]

/-- The same for an instruction known to be well-formed, as every instruction but TRAP is. -/
theorem decode_row {w : Word} {i : Instr} (hi : i.wellFormed = true) : decode w = i ↔ HasFields w (rowFields i) :=
  decode_eq_iff_hasFields.trans (and_iff_right hi)

theorem wellFormed_trap_iff (u : BitVec 4) (v : BitVec 8) :
    (Instr.trap u v).wellFormed = true ↔ ¬(0x20 ≤ v.toNat ∧ v.toNat ≤ 0x25) := by
  rw [Instr.wellFormed, ← isServiceVector_iff, Bool.not_eq_true', Bool.not_eq_true]

/-- Settles O4, row by row. -/
theorem decodeFieldsOfOperateRows : Obligations.DecodeFieldsOfOperateRows := fun _ _ _ _ _ _ _ =>
  ⟨decode_row rfl, decode_row rfl, decode_row rfl, decode_row rfl, decode_row rfl⟩

/-- Settles O5, row by row. -/
theorem decodeFieldsOfLoadStoreRows : Obligations.DecodeFieldsOfLoadStoreRows := fun _ _ _ _ _ =>
  ⟨decode_row rfl, decode_row rfl, decode_row rfl, decode_row rfl, decode_row rfl, decode_row rfl, decode_row rfl⟩

/-- Settles O6, row by row. -/
theorem decodeFieldsOfControlRows : Obligations.DecodeFieldsOfControlRows := fun _ _ _ _ _ _ _ _ =>
  ⟨decode_row rfl, decode_row rfl, decode_row rfl, decode_row rfl⟩

/-- Settles O7, row by row; TRAP's own row has the vectors that leave it well-formed. -/
theorem decodeFieldsOfTrapAndReservedRows : Obligations.DecodeFieldsOfTrapAndReservedRows := fun _ u v _ =>
  ⟨decode_row rfl, decode_row rfl, decode_row rfl, decode_row rfl, decode_row rfl, decode_row rfl,
    decode_eq_iff_hasFields.trans (and_congr_left' (wellFormed_trap_iff u v)), decode_row rfl, decode_row rfl⟩

/-- Settles O3, word by word. -/
theorem decodeReadsSpecWords : Obligations.DecodeReadsSpecWords := by
  unfold Obligations.DecodeReadsSpecWords
  decide

end Sys2Proof
end

section
/-! SUPPORT. Unread bits (30_encoding.md R90): the router looks at an instruction's word for the fault record alone. -/

namespace Sys2Proof.Machine

/-- The router with another word differs at most in the fault record, where the vector is undefined. -/
theorem State.route_word (s : State) (v : BitVec 8) (ir ir' : Word) :
    ∃ f, s.route v ir' = { s.route v ir with fault := f } := by
  have same (t : State) : ∃ f, t = { t with fault := f } := ⟨t.fault, rfl⟩
  unfold State.route
  split_ifs
  case neg => exact ⟨(s.raiseFault .badTrapVector ir').fault, rfl⟩
  all_goals exact same _

/-- Settles O8: no meaning takes its unread bits but for the record of a fault. -/
theorem unreadBitsHaveNoEffect : Obligations.UnreadBitsHaveNoEffect := by
  intro dr sr1 sr2 a2 b2 a3 b3 a4 b4 a6 b6 v a12 b12 s t
  refine ⟨rfl, rfl, rfl, rfl, rfl, rfl, rfl, rfl, rfl, rfl, rfl, fun h => ?_, fun h => ?_, fun h => ?_⟩ <;> cases h
  · obtain ⟨f, hf⟩ := s.link.route_word v (encode (.trap a4 v)) (encode (.trap b4 v))
    exact ⟨f, congrArg _ hf⟩
  · exact ⟨(s.raiseFault .reservedOpcode (encode (.rti b12))).fault, rfl⟩
  · exact ⟨(s.raiseFault .reservedOpcode (encode (.res b12))).fault, rfl⟩

end Sys2Proof.Machine
end

section
/-! SUPPORT. ADD, AND and NOT (40_operate.md): each completes with one result write of its value, which defines the register,
the flag from it, and nothing else (R116); what is left of each statement is the value as a number or bit by bit. -/

namespace Sys2Proof.Machine

open Sys2Proof.Safety

/-! ### The result write -/

/-- The result register holds the value written, a source register or not. -/
theorem State.reg_result_same (s : State) (dr : Reg) (v : Word) : (s.result dr v).reg dr = v :=
  (s.reg_result dr dr v).trans (if_pos rfl)

/-- The flag after a result write is that of the result register. -/
theorem flagOf_result (s : State) (dr : Reg) (v : Word) :
    FlagOf ((s.result dr v).reg dr) (s.result dr v).cond := by
  rw [State.reg_result_same, State.result_cond]
  exact flagOf_condOf v

/-- The frame of a result write (10_state.md R21, R28). -/
theorem onlyResult_result (s : State) (dr : Reg) (v : Word) : OnlyResult dr s (s.result dr v) :=
  ⟨fun r hr => (s.reg_result dr r v).trans (if_neg (List.ne_of_not_mem_cons hr)), s.cell_result dr v, s.result_pc dr v,
    ⟨s.result_status dr v, s.result_fault dr v, s.result_hold dr v⟩,
    ⟨s.result_inq dr v, s.result_arrivals dr v, s.result_later dr v⟩, s.result_outq dr v⟩

/-! ### The meanings, as result writes -/

theorem exec_addR (dr sr1 : Reg) (u : BitVec 2) (sr2 : Reg) (s : State) :
    exec (.addR dr sr1 u sr2) s = .next (s.result dr (s.reg sr1 + s.reg sr2)) := rfl

theorem exec_addI (dr sr1 : Reg) (imm5 : BitVec 5) (s : State) :
    exec (.addI dr sr1 imm5) s = .next (s.result dr (s.reg sr1 + sext16 imm5)) := rfl

theorem exec_andR (dr sr1 : Reg) (u : BitVec 2) (sr2 : Reg) (s : State) :
    exec (.andR dr sr1 u sr2) s = .next (s.result dr (s.reg sr1 &&& s.reg sr2)) := rfl

theorem exec_andI (dr sr1 : Reg) (imm5 : BitVec 5) (s : State) :
    exec (.andI dr sr1 imm5) s = .next (s.result dr (s.reg sr1 &&& sext16 imm5)) := rfl

theorem exec_not (dr sr1 : Reg) (u : BitVec 6) (s : State) :
    exec (.not dr sr1 u) s = .next (s.result dr (~~~(s.reg sr1))) := rfl

/-! ### The statements -/

/-- The bits of a sign-extended field: its own, then copies of its top bit (00_scope.md R9). -/
theorem getLsbD_sext16 {n k : Nat} (f : BitVec n) (hk : k < 16) : (sext16 f).getLsbD k = f.getLsbD (min k (n - 1)) := by
  rw [sext16, BitVec.getLsbD_signExtend, decide_eq_true hk, Bool.true_and]
  split
  · rw [Nat.min_eq_left (by omega)]
  · rw [Nat.min_eq_right (by omega), BitVec.msb_eq_getLsbD_last]

/-- Settles O18: a result write of the sum, whose number is the sum modulo 65536. -/
theorem addDefinesSumAndFlag : Obligations.AddDefinesSumAndFlag := by
  intro dr sr1 sr2 u imm5 s
  refine ⟨⟨_, exec_addR dr sr1 u sr2 s, ?_, flagOf_result .., onlyResult_result ..⟩,
    ⟨_, exec_addI dr sr1 imm5 s, ?_, flagOf_result .., onlyResult_result ..⟩⟩ <;> rw [State.reg_result_same]
  · exact BitVec.toNat_add _ _
  · exact toNat_add_sext16 _ imm5 (by decide)

/-- Settles O19: a result write of the bitwise AND; an immediate's upper bits are its bit 4. -/
theorem andDefinesBitsAndFlag : Obligations.AndDefinesBitsAndFlag := by
  intro dr sr1 sr2 u imm5 s
  refine ⟨⟨_, exec_andR dr sr1 u sr2 s, fun k _ => ?_, flagOf_result .., onlyResult_result ..⟩,
    ⟨_, exec_andI dr sr1 imm5 s, fun k hk => ?_, flagOf_result .., onlyResult_result ..⟩⟩ <;>
    rw [State.reg_result_same, BitVec.getLsbD_and]
  rw [getLsbD_sext16 imm5 hk]

/-- Settles O20: a result write of the complement, whose number is 65535 minus the source's. -/
theorem notDefinesComplementAndFlag : Obligations.NotDefinesComplementAndFlag := by
  intro dr sr1 u s
  refine ⟨_, exec_not dr sr1 u s, ?_, flagOf_result .., onlyResult_result ..⟩
  rw [State.reg_result_same]
  exact BitVec.toNat_not

end Sys2Proof.Machine
end

section
/-! SUPPORT. LD, LDI, LDR, LEA, ST, STI and STR (41_load_store.md): a load is a result write of the word one read answers, a
store replaces one cell, and away from KBSR a read is the cell itself. -/

namespace Sys2Proof.Machine

open Sys2Proof.Safety

/-! ### Addresses -/

/-- The address LD, ST and LEA form and LDI and STI take their pointer from, as a number (41_load_store.md R127). -/
theorem State.toNat_pcRel9 (s : State) (off9 : BitVec 9) :
    ((s.pcRel9 off9).toNat : Int) = (s.pc.toNat + off9.toInt) % 65536 := toNat_add_sext16 s.pc off9 (by decide)

/-- JSR's target as a number (42_control.md R143). -/
theorem State.toNat_pcRel11 (s : State) (off11 : BitVec 11) :
    ((s.pcRel11 off11).toNat : Int) = (s.pc.toNat + off11.toInt) % 65536 := toNat_add_sext16 s.pc off11 (by decide)

/-- The address of LDR and STR as a number (41_load_store.md R127). -/
theorem State.toNat_baseOff6 (s : State) (baseR : Reg) (off6 : BitVec 6) :
    ((s.baseOff6 baseR off6).toNat : Int) = ((s.reg baseR).toNat + off6.toInt) % 65536 :=
  toNat_add_sext16 (s.reg baseR) off6 (by decide)

/-- Settles O12: each form is a word plus a sign-extended field, and a field of `n` bits ranges over `-2^(n-1)` to
`2^(n-1) - 1`. -/
theorem effectiveAddressesWrap : Obligations.EffectiveAddressesWrap := fun s baseR off9 off6 off11 =>
  ⟨s.toNat_pcRel9 off9, s.toNat_baseOff6 baseR off6, s.toNat_pcRel11 off11,
    off9.le_toInt, Int.le_sub_one_of_lt off9.toInt_lt, off6.le_toInt, Int.le_sub_one_of_lt off6.toInt_lt,
    off11.le_toInt, Int.le_sub_one_of_lt off11.toInt_lt⟩

/-! ### The meanings of the loads -/

theorem exec_ld (dr : Reg) (off9 : BitVec 9) (s : State) :
    exec (.ld dr off9) s = .next (s.loadFrom dr (s.pcRel9 off9)) := rfl

theorem exec_ldr (dr baseR : Reg) (off6 : BitVec 6) (s : State) :
    exec (.ldr dr baseR off6) s = .next (s.loadFrom dr (s.baseOff6 baseR off6)) := rfl

theorem exec_ldi (dr : Reg) (off9 : BitVec 9) (s : State) : exec (.ldi dr off9) s =
    .next ((s.memRead (s.pcRel9 off9)).2.loadFrom dr (s.memRead (s.pcRel9 off9)).1) := rfl

theorem exec_lea (dr : Reg) (off9 : BitVec 9) (s : State) :
    exec (.lea dr off9) s = .next (s.result dr (s.pcRel9 off9)) := rfl

/-! ### One load and one store -/

/-- A load from `ea` defines the register and the flag from the word one read of `ea` answers, and changes nothing else of the
state that read leaves (41_load_store.md R128). -/
theorem loaded_loadFrom (s : State) (dr : Reg) (ea : Word) :
    Loaded dr (s.memRead ea).1 (s.memRead ea).2 (s.loadFrom dr ea) :=
  ⟨State.reg_result_same .., flagOf_condOf _, onlyResult_result ..⟩

/-- A store replaces one cell (20_memory.md R55; 41_load_store.md R128). -/
theorem stored_memWrite {s : State} (hw : s.mem.wf = true) (ea v : Word) : Stored ea v s (s.memWrite ea v) :=
  ⟨fun a => State.cell_setCell hw ea a v, fun r _ => s.reg_memWrite ea v r, s.memWrite_pc ea v, s.memWrite_cond ea v,
    ⟨s.memWrite_status ea v, s.memWrite_fault ea v, s.memWrite_hold ea v⟩,
    ⟨s.memWrite_inq ea v, s.memWrite_arrivals ea v, s.memWrite_later ea v⟩, s.memWrite_outq ea v⟩

/-! ### The statements about one instruction -/

/-- Settles O21: both load from their effective address. -/
theorem ldAndLdrLoadOneWord : Obligations.LdAndLdrLoadOneWord := fun dr baseR off9 off6 s hw =>
  ⟨⟨_, _, _, memReadPollsOnlyKbsr s _ hw, exec_ld dr off9 s, loaded_loadFrom ..⟩,
    ⟨_, _, _, memReadPollsOnlyKbsr s _ hw, exec_ldr dr baseR off6 s, loaded_loadFrom ..⟩⟩

/-- Settles O22: after the pointer read memory is canonical still, and the load is from the pointer. -/
theorem ldiLoadsThroughPointer : Obligations.LdiLoadsThroughPointer := fun dr off9 s hw =>
  ⟨_, _, _, _, _, memReadPollsOnlyKbsr s _ hw, memReadPollsOnlyKbsr _ _ (State.memRead_wf hw _), exec_ldi dr off9 s,
    loaded_loadFrom ..⟩

/-- Settles O23: a result write of the address itself. -/
theorem leaDefinesAddressAndFlag : Obligations.LeaDefinesAddressAndFlag := by
  intro dr off9 s
  refine ⟨_, exec_lea dr off9 s, ?_, flagOf_result .., onlyResult_result ..⟩
  rw [State.reg_result_same]
  exact s.toNat_pcRel9 off9

/-- Settles O24: both store at their effective address. -/
theorem stAndStrStoreOneCell : Obligations.StAndStrStoreOneCell := fun sr baseR off9 off6 s hw =>
  ⟨⟨_, exec_st sr off9 s, stored_memWrite hw ..⟩, ⟨_, exec_str sr baseR off6 s, stored_memWrite hw ..⟩⟩

/-- Settles O25: after the pointer read memory is canonical still, and the store is at the pointer. -/
theorem stiStoresThroughPointer : Obligations.StiStoresThroughPointer := fun sr off9 s hw =>
  ⟨_, _, _, memReadPollsOnlyKbsr s _ hw, exec_sti sr off9 s, stored_memWrite (State.memRead_wf hw _) ..⟩

/-! ### The round trip -/

/-- Away from KBSR a load is from the cell. -/
theorem State.loadFrom_plain {s : State} {ea : Word} (h : ea ≠ Config.kbsrAddr) (dr : Reg) :
    s.loadFrom dr ea = s.result dr (s.cell ea) := by
  rw [State.loadFrom, State.memRead_plain h]

/-- With its pointer cell away from KBSR, STI stores at the cell's content. -/
theorem exec_sti_plain {s : State} {off9 : BitVec 9} (h : s.pcRel9 off9 ≠ Config.kbsrAddr) (sr : Reg) :
    exec (.sti sr off9) s = .next (s.memWrite (s.cell (s.pcRel9 off9)) (s.reg sr)) := by
  rw [exec_sti, State.memRead_plain h]

/-- With its pointer cell away from KBSR, LDI loads from the cell's content. -/
theorem exec_ldi_plain {s : State} {off9 : BitVec 9} (h : s.pcRel9 off9 ≠ Config.kbsrAddr) (dr : Reg) :
    exec (.ldi dr off9) s = .next (s.loadFrom dr (s.cell (s.pcRel9 off9))) := by
  rw [exec_ldi, State.memRead_plain h]

/-- Settles O26: no read polls, so the LDI writes the content of the cell at `a`, which is what the STI stored there. -/
theorem stiThenLdiRoundTrip : Obligations.StiThenLdiRoundTrip := by
  intro s t u sr dr off off' a hw hpa hptr ha _ hsti hkept hpa' hptr'
  have ht : t = s.memWrite a (s.reg sr) := exec_unique hsti (hptr ▸ exec_sti_plain hpa sr)
  have hword : u.cell a = s.reg sr := by
    rw [hkept, ht]
    exact (State.cell_setCell hw a a _).trans (if_pos rfl)
  have hldi : exec (.ldi dr off') u = .next (u.result dr (s.reg sr)) := by
    rw [exec_ldi_plain hpa', hptr', State.loadFrom_plain ha, hword]
  exact ⟨_, hldi, State.reg_result_same .., rfl⟩

end Sys2Proof.Machine
end

section
/-! SUPPORT. BR, JMP, JSR and JSRR (42_control.md): each sets `pc` alone, in the state itself or, for the two calls, in the state
after the link save. -/

namespace Sys2Proof.Machine

open Sys2Proof.Safety

/-! ### The meanings, as one write of pc -/

/-- BR always sets `pc`: where it is not taken, to what it holds. -/
theorem exec_br (nzp : BitVec 3) (off9 : BitVec 9) (s : State) :
    exec (.br nzp off9) s = .next (s.setPc (if brTaken nzp s.cond then s.pcRel9 off9 else s.pc)) := by
  simp only [exec, execBr]
  split <;> rfl

theorem exec_jmp (u3 : BitVec 3) (baseR : Reg) (u6 : BitVec 6) (s : State) :
    exec (.jmp u3 baseR u6) s = .next (s.setPc (s.reg baseR)) := rfl

theorem exec_jsr (off11 : BitVec 11) (s : State) :
    exec (.jsr off11) s = .next (s.link.setPc (s.pcRel11 off11)) := rfl

theorem exec_jsrr (u2 : BitVec 2) (baseR : Reg) (u6 : BitVec 6) (s : State) :
    exec (.jsrr u2 baseR u6) s = .next (s.link.setPc (s.link.reg baseR)) := rfl

/-! ### The frames and the link -/

theorem onlyPc_setPc (s : State) (p : Word) : OnlyPc [] s (s.setPc p) :=
  ⟨fun r _ => s.reg_setPc p r, s.cell_setPc p, s.setPc_cond p, ⟨s.setPc_status p, s.setPc_fault p, s.setPc_hold p⟩,
    ⟨s.setPc_inq p, s.setPc_arrivals p, s.setPc_later p⟩, s.setPc_outq p⟩

/-- A call changes R7 and `pc` alone (10_state.md R22, R23). -/
theorem onlyPc_link_setPc (s : State) (p : Word) : OnlyPc [.r7] s (s.link.setPc p) :=
  ⟨fun r hr => (s.reg_link r).trans (if_neg (List.ne_of_not_mem_cons hr)), s.cell_link, s.link_cond,
    ⟨s.link_status, s.link_fault, s.link_hold⟩, ⟨s.link_inq, s.link_arrivals, s.link_later⟩, s.link_outq⟩

/-- After a call R7 holds the old `pc`, the target notwithstanding. -/
theorem State.reg_link_setPc_r7 (s : State) (p : Word) : (s.link.setPc p).reg .r7 = s.pc :=
  (s.reg_link .r7).trans (if_pos rfl)

/-! ### The BR test -/

/-- The mask's three bits test the flag's three in the order N, Z, P (42_control.md R140; D3, log 2). -/
theorem brTaken_iff (n z p : Bool) (c : Cond) : brTaken (BitVec.ofBool n ++ BitVec.ofBool z ++ BitVec.ofBool p) c = true ↔
    (n = true ∧ c = .n) ∨ (z = true ∧ c = .z) ∨ (p = true ∧ c = .p) := by
  revert n z p
  cases c <;> decide

/-! ### The statements -/

/-- Settles O27: a write of `pc` to the target or to itself, as the mask's test of the flag says. -/
theorem brTakenByMaskAndFlag : Obligations.BrTakenByMaskAndFlag := by
  intro n z p off9 s
  refine ⟨_, exec_br _ off9 s, fun h => ?_, fun h => ?_, onlyPc_setPc ..⟩ <;> rw [← brTaken_iff] at h
  · rw [State.setPc_pc, if_pos h]
    exact s.toNat_pcRel9 off9
  · exact if_neg h

/-- Settles O28: JMP is a write of `pc`, the two calls a link save and then one; JSRR's base is read after the save. -/
theorem jumpsAndCallsSetPc : Obligations.JumpsAndCallsSetPc := fun baseR u3 u2 u6 off11 s =>
  ⟨⟨_, exec_jmp u3 baseR u6 s, rfl, onlyPc_setPc ..⟩,
    ⟨_, exec_jsr off11 s, s.reg_link_setPc_r7 _, s.toNat_pcRel11 off11, onlyPc_link_setPc ..⟩,
    ⟨_, exec_jsrr u2 baseR u6 s, s.reg_link_setPc_r7 _, s.reg_link baseR, onlyPc_link_setPc ..⟩⟩

/-- Settles O29: either call leaves the link in R7, and JMP R7 goes to what R7 holds. -/
theorem returnGoesAfterTheCall : Obligations.ReturnGoesAfterTheCall := by
  intro s t u off11 baseR u2 u3 u6 u6' hcall
  have hlink : t.reg .r7 = s.pc := by
    rcases hcall with hjsr | hjsrr
    · obtain rfl := exec_unique hjsr (exec_jsr off11 s)
      exact s.reg_link_setPc_r7 _
    · obtain rfl := exec_unique hjsrr (exec_jsrr u2 baseR u6 s)
      exact s.reg_link_setPc_r7 _
  exact ⟨hlink, fun hkept => ⟨_, exec_jmp u3 .r7 u6' u, hkept.trans hlink⟩⟩

end Sys2Proof.Machine
end

section
/-! SUPPORT. TRAP's link and routing, and the three services that always complete (43_trap.md R150, R151, R153, R157, R158):
what the link leaves unchanged is said once, and each service's frame is added to it. -/

namespace Sys2Proof.Machine

open Sys2Proof.Safety

/-! ### The meanings, as a service after the link -/

theorem exec_trap (u : BitVec 4) (v : BitVec 8) (s : State) :
    exec (.trap u v) s = .next (s.link.route v (encode (.trap u v))) := rfl

theorem exec_getc (u : BitVec 4) (s : State) : exec (.getc u) s = .next s.link.getcService := rfl

theorem exec_out (u : BitVec 4) (s : State) : exec (.out u) s = .next (s.link.outBytes [low8 (s.reg .r0)]) := rfl

theorem exec_puts (u : BitVec 4) (s : State) :
    exec (.puts u) s = .next (s.link.stringService putsBytes .puts (s.reg .r0)) := rfl

theorem exec_inp (u : BitVec 4) (s : State) : exec (.inp u) s = .next (s.link.outBytes Config.inPrompt).inRead := rfl

theorem exec_putsp (u : BitVec 4) (s : State) :
    exec (.putsp u) s = .next (s.link.stringService putspBytes .putsp (s.reg .r0)) := rfl

theorem exec_halt (u : BitVec 4) (s : State) : exec (.halt u) s = .next s.link.haltService := rfl

/-! ### The link -/

/-- After the link R7 holds `pc`. -/
theorem State.reg_link_r7 (s : State) : s.link.reg .r7 = s.pc := (s.reg_link .r7).trans (if_pos rfl)

/-- What is kept from after the link on is, but for R7, kept from before it. -/
theorem regsKept_of_link {rs : List Reg} {s t : State} (h : RegsKept rs s.link t) : RegsKept (rs ++ [.r7]) s t := by
  intro r hr
  obtain ⟨hrs, h7⟩ := not_or.mp (mt List.mem_append.mpr hr)
  rw [h r hrs, State.reg_link, if_neg (List.ne_of_not_mem_cons h7)]

/-- A service that keeps R7 leaves the link in it. -/
theorem reg_r7_of_regsKept {rs : List Reg} {s t : State} (h : RegsKept rs s.link t) (h7 : .r7 ∉ rs) : t.reg .r7 = s.pc :=
  (h .r7 h7).trans s.reg_link_r7

/-- The link alone changes R7 alone. -/
theorem regsKept_link (s : State) : RegsKept [.r7] s s.link :=
  regsKept_of_link (rs := []) fun _ _ => rfl

/-! ### The router -/

theorem routedStatus_faulted (v : BitVec 8) (r : RunState) :
    routedStatus v r = .faulted ↔ ¬(0x20 ≤ v.toNat ∧ v.toNat ≤ 0x25) ∨ (v ≠ 0x25 ∧ r = .faulted) := by
  rw [← isServiceVector_iff, routedStatus]
  by_cases h25 : v = 0x25
  · subst h25
    simp [show isServiceVector 0x25#8 = true from rfl]
  · rw [if_neg h25, and_iff_right h25]
    cases isServiceVector v <;> simp

/-- A vector that is none of the six takes the fault. -/
theorem State.route_undefined {v : BitVec 8} (h : isServiceVector v = false) (s : State) (ir : Word) :
    s.route v ir = s.raiseFault .badTrapVector ir := by
  have hne := mt (isServiceVector_iff_eq v).mpr (Bool.eq_false_iff.mp h)
  simp only [not_or] at hne
  simp only [State.route, hne, if_false]

/-- Settles O30: the router after the link keeps R7 and `pc`, and at each of the six vectors it is that vector's service. -/
theorem trapLinksAndRoutes : Obligations.TrapLinksAndRoutes := by
  intro u v s
  obtain ⟨hregs, -, hpc, hstatus⟩ := s.link.route_leaves v (encode (.trap u v))
  have hlink := reg_r7_of_regsKept hregs (by split <;> decide)
  refine ⟨⟨_, exec_trap u v s, hlink, hpc, ?_, ?_⟩, rfl, rfl, rfl, rfl, rfl, rfl⟩
  · convert regsKept_of_link hregs using 1
    simp only [readsByte, decide_eq_true_eq]
    split <;> rfl
  · rw [hstatus]
    exact routedStatus_faulted v s.status

/-- Settles O31: the router takes the fault in the state after the link. -/
theorem undefinedVectorFaults : Obligations.UndefinedVectorFaults := by
  intro u v s hv
  have hroute := s.link.route_undefined
    (Bool.eq_false_iff.mpr (mt (isServiceVector_iff v).mp hv)) (encode (.trap u v))
  exact ⟨_, (exec_trap u v s).trans (congrArg _ hroute), rfl, rfl, s.reg_link_r7, regsKept_link s, rfl, rfl, s.cell_link,
    ⟨rfl, rfl, rfl⟩, rfl, rfl⟩

/-! ### OUT and HALT -/

/-- Settles O34: the link, then one byte, the low field of R0. -/
theorem outEmitsLowByte : Obligations.OutEmitsLowByte := fun u s =>
  ⟨_, _, exec_out u s, (extract_toNat (s.reg .r0) 0 8).trans (by rw [Nat.pow_zero, Nat.div_one]; rfl), rfl, s.reg_link_r7,
    regsKept_link s, s.cell_link, rfl, rfl, ⟨rfl, rfl, rfl⟩, ⟨rfl, rfl, rfl⟩⟩

/-- Settles O38: the link, the announcement, and the run state. -/
theorem haltStopsTheCore : Obligations.HaltStopsTheCore := fun u s =>
  ⟨_, exec_halt u s, rfl, rfl, rfl, s.reg_link_r7, regsKept_link s, s.cell_link, rfl, rfl, ⟨rfl, rfl, rfl⟩, rfl⟩

end Sys2Proof.Machine
end

section
/-! SUPPORT. GETC and IN (43_trap.md R152, R155, R159): a blocking read is done with the first byte within its step's wait, or
is held; as an instruction, going on in a later step, and over many steps. -/

namespace Sys2Proof.Machine

open Sys2Proof.Safety

/-! ### Emitted bytes -/

@[simp] theorem State.outBytes_nil (s : State) : s.outBytes [] = s := by rw [State.outBytes, List.append_nil]

@[simp] theorem State.outBytes_outBytes (s : State) (xs ys : List Byte) :
    (s.outBytes xs).outBytes ys = s.outBytes (xs ++ ys) := by
  simp only [State.outBytes, List.append_assoc]

/-! ### One blocking read -/

/-- From `s` to `t` a blocking read took the byte `b` into R0, with its flag, and emitted `echo`. -/
structure ReadDone (b : Byte) (echo : List Byte) (s t : State) : Prop where
  value : (t.reg .r0).toNat = b.toNat
  flag : t.cond = if b.toNat = 0 then .z else .p
  regs : RegsKept [.r0] s t
  mem : MemKept s t
  pc : t.pc = s.pc
  run : RunKept s t
  input : ∃ k ≤ waits s, InputMoved k [b] s t
  output : t.outq = s.outq ++ echo

/-- From `s` to `t` a blocking read waited through its step, met no byte, and is held as `k`. -/
structure ReadHeld (k : Hold) (s t : State) : Prop where
  frame : t = { s with inq := t.inq, arrivals := t.arrivals, later := t.later, hold := some k }
  input : InputMoved (waits s) [] s t

/-- The result write of the byte taken, after its echo. -/
theorem readDone_result {s t : State} {b : Byte} {k : Nat} (ho : OnlyInput s t) (hk : k ≤ waits s)
    (hm : InputMoved k [b] s t) (echo : List Byte) :
    ReadDone b echo s ((t.outBytes echo).result .r0 (zext16 b)) where
  value := by rw [State.reg_result_same, toNat_zext16]
  flag := condOf_zext16 b
  regs := fun r hr => by
    rw [State.reg_result, if_neg (List.ne_of_not_mem_cons hr), ho]
    rfl
  mem := fun a => by
    rw [ho]
    rfl
  pc := by rw [ho]; rfl
  run := by
    rw [ho]
    exact ⟨rfl, rfl, rfl⟩
  input := ⟨k, hk, hm⟩
  output := by rw [ho]; rfl

/-- The state after a wait in vain. -/
theorem readHeld_hold {s t : State} (ho : OnlyInput s t) (hm : InputMoved (waits s) [] s t) (k : Hold) :
    ReadHeld k s { t with hold := some k } where
  frame := by rw [ho]
  input := hm

/-- One step of a blocking read from `s` to `t`, which is held as `k` while no byte comes: done with the first byte within the
step's wait, or held. -/
structure BlockingRead (k : Hold) (echo : Byte → List Byte) (s t : State) : Prop where
  done : ∀ b rest, upcoming s (waits s) = b :: rest → ReadDone b (echo b) s t
  held : upcoming s (waits s) = [] → ReadHeld k s t

/-- A service that takes the first byte within its wait and finishes with it, or is held. -/
theorem blockingRead_of_cases {k : Hold} {echo : Byte → List Byte} {s t : State}
    (h : (∃ b u n, t = (u.outBytes (echo b)).result .r0 (zext16 b) ∧ OnlyInput s u ∧ n ≤ waits s ∧ InputMoved n [b] s u ∧
        ∃ rest, upcoming s (waits s) = b :: rest) ∨
      (∃ u, t = { u with hold := some k } ∧ OnlyInput s u ∧ InputMoved (waits s) [] s u ∧ upcoming s (waits s) = [])) :
    BlockingRead k echo s t := by
  rcases h with ⟨b, u, n, rfl, ho, hn, hm, rest, hup⟩ | ⟨u, rfl, ho, hm, hup⟩
  · refine ⟨fun b' rest' h' => ?_, fun h' => nomatch hup.symm.trans h'⟩
    obtain ⟨rfl, -⟩ := List.cons.inj (hup.symm.trans h')
    exact readDone_result ho hn hm (echo b)
  · exact ⟨fun _ _ h' => (nomatch hup.symm.trans h'), fun _ => readHeld_hold ho hm k⟩

theorem blockingRead_getcService (s : State) : BlockingRead .getc (fun _ => []) s s.getcService :=
  blockingRead_of_cases (by simpa only [State.outBytes_nil, State.finishGetc] using s.getcService_cases)

theorem blockingRead_inRead (s : State) : BlockingRead .inp (fun b => [b]) s s.inRead :=
  blockingRead_of_cases s.inRead_cases

/-! ### The two instructions -/

/-- What GETC and IN do as instructions, from `s` to `t`: `prompt`, then the blocking read. -/
def LinkedRead (k : Hold) (prompt : List Byte) (echo : Byte → List Byte) (s t : State) : Prop :=
  (∀ b rest, upcoming s (waits s) = b :: rest →
    (t.reg .r0).toNat = b.toNat ∧ t.cond = (if b.toNat = 0 then .z else .p) ∧ t.reg .r7 = s.pc ∧ RegsKept [.r0, .r7] s t ∧
    MemKept s t ∧ t.pc = s.pc ∧ RunKept s t ∧ (∃ n ≤ waits s, InputMoved n [b] s t) ∧ t.outq = s.outq ++ prompt ++ echo b) ∧
  (upcoming s (waits s) = [] →
    t.hold = some k ∧ t.reg .r7 = s.pc ∧ RegsKept [.r7] s t ∧ MemKept s t ∧ t.pc = s.pc ∧ t.cond = s.cond ∧
    t.status = s.status ∧ t.fault = s.fault ∧ InputMoved (waits s) [] s t ∧ t.outq = s.outq ++ prompt)

theorem BlockingRead.linked {k : Hold} {prompt : List Byte} {echo : Byte → List Byte} {s t : State}
    (h : BlockingRead k echo (s.link.outBytes prompt) t) : LinkedRead k prompt echo s t := by
  refine ⟨fun b rest hup => ?_, fun hup => ?_⟩
  · obtain ⟨hval, hflag, hregs, hmem, hpc, hrun, hin, hout⟩ := h.done b rest hup
    have hregs' : RegsKept [.r0] s.link t := hregs
    exact ⟨hval, hflag, reg_r7_of_regsKept hregs' (by decide), regsKept_of_link hregs', hmem, hpc, hrun, hin, hout⟩
  · obtain ⟨hframe, hin⟩ := h.held hup
    rw [hframe] at hin ⊢
    exact ⟨rfl, s.reg_link_r7, regsKept_link s, s.cell_link, rfl, rfl, rfl, rfl, hin, rfl⟩

/-- Settles O32: the read after the link, with no prompt and no echo. -/
theorem getcTakesOneByteOrIsHeld : Obligations.GetcTakesOneByteOrIsHeld := by
  intro u s
  have hread : LinkedRead .getc [] (fun _ => []) s s.link.getcService :=
    BlockingRead.linked (by simpa only [State.outBytes_nil] using blockingRead_getcService s.link)
  simp only [LinkedRead, List.append_nil] at hread
  obtain ⟨hdone, hheld⟩ := hread
  exact ⟨fun b rest hup => ⟨_, exec_getc u s, hdone b rest hup⟩, fun hup => ⟨_, exec_getc u s, hheld hup⟩⟩

/-- Settles O33: the prompt after the link, then the read, with its echo. -/
theorem inPromptsReadsAndEchoes : Obligations.InPromptsReadsAndEchoes := by
  intro u s
  obtain ⟨hdone, hheld⟩ := (blockingRead_inRead (s.link.outBytes Config.inPrompt)).linked
  exact ⟨fun b rest hup => ⟨_, exec_inp u s, hdone b rest hup⟩, fun hup => ⟨_, exec_inp u s, hheld hup⟩⟩

/-! ### A held read -/

/-- A service in progress goes on in a running core. -/
theorem step_held {s : State} {k : Hold} (hs : s.status = .running) (hh : s.hold = some k) : step s = .next (s.resume k) := by
  rw [step, hs, hh]

/-- A held GETC or IN goes on as its blocking read, with the echo by IN only. -/
theorem blockingRead_resume {k : Hold} (hk : k = .getc ∨ k = .inp) (s : State) :
    BlockingRead k (fun b => if k = .inp then [b] else []) { s with hold := none } (s.resume k) := by
  rcases hk with rfl | rfl
  · exact blockingRead_getcService _
  · exact blockingRead_inRead _

/-- A read that is held again has changed the input alone. -/
theorem onlyInput_resume {k : Hold} (hk : k = .getc ∨ k = .inp) {s : State} (hh : s.hold = some k)
    (h : upcoming s (waits s) = []) : OnlyInput s (s.resume k) := by
  have hframe := ((blockingRead_resume hk s).held h).frame
  rw [← hh] at hframe
  exact hframe

/-- Settles O40: the step is the read's going on, done or held again. -/
theorem heldReadWaitsForAByte : Obligations.HeldReadWaitsForAByte := by
  refine fun k s hk hs hh => ⟨fun hup => ?_, fun b rest hup => ?_⟩
  · exact ⟨_, step_held hs hh, onlyInput_resume hk hh hup, ((blockingRead_resume hk s).held hup).input⟩
  · obtain ⟨hval, hflag, hregs, hmem, hpc, ⟨hstatus, hfault, hhold⟩, hin, hout⟩ :=
      (blockingRead_resume hk s).done b rest hup
    exact ⟨_, step_held hs hh, hhold, hval, hflag, hregs, hmem, hpc, hstatus.trans hs, hfault, hin, hout⟩

/-! ### A held read over many steps -/

theorem stepN_succ_held {s : State} {k : Hold} (hs : s.status = .running) (hh : s.hold = some k) (n : Nat) :
    stepN (n + 1) s = stepN n (s.resume k) := by
  rw [stepN, step_held hs hh]

/-- The first byte the environment supplies is the same, however far it is looked ahead. -/
theorem upcoming_head {s : State} {m n : Nat} {b c : Byte} {bs cs : List Byte} (hm : upcoming s m = b :: bs)
    (hn : upcoming s n = c :: cs) : b = c := by
  have of_le {i j : Nat} {x y : Byte} {xs ys : List Byte} (hij : i ≤ j) (hi : upcoming s i = x :: xs)
      (hj : upcoming s j = y :: ys) : x = y := by
    obtain ⟨zs, hz⟩ := upcoming_add s i (j - i)
    rw [Nat.add_sub_cancel' hij, hj, hi] at hz
    exact (List.cons.inj hz).1.symm
  rcases Nat.le_total m n with h | h
  · exact of_le h hm hn
  · exact (of_le h hn hm).symm

/-- With nothing in the first `m` acts of the environment, a first byte comes after them. -/
theorem lt_of_upcoming_nil {s : State} {m n : Nat} {b : Byte} {rest : List Byte} (hm : upcoming s m = [])
    (hn : upcoming s n = b :: rest) : m < n := by
  by_contra hle
  obtain ⟨bs, h⟩ := upcoming_add s n (m - n)
  rw [Nat.add_sub_cancel' (Nat.le_of_not_lt hle), hm, hn] at h
  exact nomatch h

/-- A held read is lifted by the first byte the environment supplies: each step before it waits at least once. -/
theorem heldRead_lifted {k : Hold} (hk : k = .getc ∨ k = .inp) {n : Nat} {s : State} (hs : s.status = .running)
    (hh : s.hold = some k) {b : Byte} {rest : List Byte} (hup : upcoming s n = b :: rest) :
    ∃ j ≤ n + 1, ∃ t, stepN j s = some t ∧ t.hold = none ∧ t.status = .running ∧ (t.reg .r0).toNat = b.toNat := by
  induction n using Nat.strong_induction_on generalizing s with
  | _ n ih =>
    cases hw : upcoming s (waits s) with
    | cons c cs =>
      obtain rfl := upcoming_head hup hw
      have hdone := (blockingRead_resume hk s).done b cs hw
      obtain ⟨hstatus, -, hhold⟩ := hdone.run
      exact ⟨1, Nat.le_add_left 1 n, _, stepN_succ_held hs hh 0, hhold, hstatus.trans hs, hdone.value⟩
    | nil =>
      have hlt := lt_of_upcoming_nil hw hup
      have hpos : 0 < waits s := Nat.succ_pos _
      have hmoved : upcoming (s.resume k) (n - waits s) = b :: rest := by
        have h := ((blockingRead_resume hk s).held hw).input (n - waits s)
        exact h.symm.trans ((congrArg (upcoming s) (Nat.add_sub_cancel' hlt.le)).trans hup)
      have ho := onlyInput_resume hk hh hw
      obtain ⟨j, hj, t, ht, hend⟩ := ih (n - waits s) (by omega) (s := s.resume k) (by rw [ho]; exact hs)
        (by rw [ho]; exact hh) hmoved
      exact ⟨j + 1, by omega, t, (stepN_succ_held hs hh j).trans ht, hend⟩

/-- With no byte ever a held read stays held. -/
theorem heldRead_waits {k : Hold} (hk : k = .getc ∨ k = .inp) {s : State} (hs : s.status = .running)
    (hh : s.hold = some k) (hup : ∀ n, upcoming s n = []) (j : Nat) : ∃ t, stepN j s = some t ∧ OnlyInput s t := by
  induction j generalizing s with
  | zero => exact ⟨s, rfl, rfl⟩
  | succ j ih =>
    have ho := onlyInput_resume hk hh (hup _)
    have hmoved := ((blockingRead_resume hk s).held (hup _)).input
    have hnone (n : Nat) : upcoming (s.resume k) n = [] := (hmoved n).symm.trans (hup _)
    obtain ⟨t, ht, ho'⟩ := ih (s := s.resume k) (by rw [ho]; exact hs) (by rw [ho]; exact hh) hnone
    refine ⟨t, (stepN_succ_held hs hh j).trans ht, ?_⟩
    unfold OnlyInput at ho ho' ⊢
    rw [ho', ho]

/-- Settles O41: with a byte by induction on the acts of the environment before it, without by induction on the steps. -/
theorem heldReadEndsWithTheFirstByte : Obligations.HeldReadEndsWithTheFirstByte := fun _ _ hk hs hh =>
  ⟨fun _ _ _ hup => heldRead_lifted hk hs hh hup, fun hup j => heldRead_waits hk hs hh hup j⟩

end Sys2Proof.Machine
end

section
/-! SUPPORT. PUTS and PUTSP (43_trap.md R154, R156, R160): one step of a string service, as an instruction and going on in a
later step; a string that ends; and a string over many steps. -/

namespace Sys2Proof.Machine

open Sys2Proof.Safety

/-! ### One step of a string service -/

@[simp] theorem State.stringService_fault (s : State) (f : Word → List Byte) (held : Word → Hold) (a : Word) :
    (s.stringService f held a).fault = s.fault := by rw [(s.stringService_frame f held a).1]

/-- A string service changes at most KBSR and KBDR, by polls. -/
theorem memKeptBut_stringService {s : State} (hw : s.mem.wf = true) (f : Word → List Byte) (held : Word → Hold) (a : Word) :
    MemKeptBut [0xFE00, 0xFE02] s (s.stringService f held a) := by
  obtain ⟨m, hm, hk⟩ := ((MemReached.refl s).stringService f held a).memKept
  exact fun c hc => (hk c).trans (memKeptBut_afterReads hm hw c hc)

/-- What PUTS and PUTSP do as instructions, from `s` to `t`. -/
def FollowsLoop (f : Word → List Byte) (held : Word → Hold) (s t : State) : Prop :=
  StringStep f held (s.reg .r0) (s.setReg .r7 s.pc) t ∧
  (s.later = .nothing → Prints f (s.reg .r0) (s.setReg .r7 s.pc) t) ∧
  t.reg .r7 = s.pc ∧ RegsKept [.r7] s t ∧ MemKeptBut [0xFE00, 0xFE02] s t ∧
  t.pc = s.pc ∧ t.cond = s.cond ∧ t.status = s.status ∧ t.fault = s.fault ∧
  (t.hold = s.hold ∨ ∃ b, t.hold = some (held b))

theorem followsLoop_stringService {s : State} (hw : s.mem.wf = true) (f : Word → List Byte) (held : Word → Hold) :
    FollowsLoop f held s (s.link.stringService f held (s.reg .r0)) := by
  obtain ⟨hregs, hcond, hpc, hstatus⟩ := keeps_stringService s.link f held (s.reg .r0)
  exact ⟨State.stringService_step .., fun hl => State.stringService_ends (s := s.link) hw hl ..,
    reg_r7_of_regsKept hregs (by decide), regsKept_of_link hregs, memKeptBut_stringService (s := s.link) hw f held _, hpc,
    hcond rfl, hstatus, State.stringService_fault .., (s.link.stringService_frame f held _).2⟩

/-- Settles O35: the service from R0 after the link, with the bytes of PUTS. -/
theorem putsFollowsItsLoop : Obligations.PutsFollowsItsLoop := fun u s hw =>
  ⟨_, exec_puts u s, followsLoop_stringService hw putsBytes .puts⟩

/-- Settles O36: the service from R0 after the link, with the bytes of PUTSP. -/
theorem putspFollowsItsLoop : Obligations.PutspFollowsItsLoop := fun u s hw =>
  ⟨_, exec_putsp u s, followsLoop_stringService hw putspBytes .putsp⟩

/-! ### A string that ends -/

/-- The words `ws`, none of them zero, stand from address `a` on, then a zero word, all away from KBSR. -/
def StringAt (s : State) : Word → List Word → Prop
  | a, [] => a ≠ Config.kbsrAddr ∧ s.cell a = 0
  | a, w :: ws => a ≠ Config.kbsrAddr ∧ s.cell a = w ∧ w ≠ 0 ∧ StringAt s (a + 1) ws

/-- Output does not touch the string. -/
theorem StringAt.outBytes {s : State} {a : Word} {ws : List Word} (h : StringAt s a ws) (bs : List Byte) :
    StringAt (s.outBytes bs) a ws := by
  induction ws generalizing a with
  | nil => exact h
  | cons w ws ih =>
    obtain ⟨ha, hc, hw, hrest⟩ := h
    exact ⟨ha, hc, hw, ih hrest⟩

/-- With more fuel than words the loop emits the string's bytes and ends. -/
theorem stringLoop_string (f : Word → List Byte) (k : Nat) {a : Word} {s : State} {ws : List Word} (h : StringAt s a ws) :
    stringLoop f (k + ws.length + 1) a s = (s.outBytes (ws.flatMap f), none) := by
  induction ws generalizing a s with
  | nil =>
    obtain ⟨ha, hc⟩ := h
    rw [stringLoop, State.memRead_plain ha, List.flatMap_nil, State.outBytes_nil]
    exact if_pos hc
  | cons w ws ih =>
    obtain ⟨ha, rfl, hw, hrest⟩ := h
    rw [stringLoop, State.memRead_plain ha, List.flatMap_cons, ← State.outBytes_outBytes]
    exact (if_neg hw).trans (ih (hrest.outBytes _))

/-- The address after the next `k` is the next after `k` (20_memory.md R50). -/
theorem add_ofNat_succ (a : Word) (k : Nat) : a + BitVec.ofNat 16 (k + 1) = a + 1 + BitVec.ofNat 16 k := by
  rw [Nat.add_comm, BitVec.ofNat_add, BitVec.add_assoc]
  rfl

/-- The string at an address, from its words by their places. -/
theorem stringAt_of_cells {s : State} {a : Word} {ws : List Word}
    (h : ∀ k (hk : k < ws.length), s.cell (a + BitVec.ofNat 16 k) = ws[k] ∧ ws[k] ≠ 0 ∧ a + BitVec.ofNat 16 k ≠ 0xFE00)
    (hend : s.cell (a + BitVec.ofNat 16 ws.length) = 0) (hne : a + BitVec.ofNat 16 ws.length ≠ 0xFE00) :
    StringAt s a ws := by
  induction ws generalizing a with
  | nil =>
    rw [List.length_nil, BitVec.add_zero] at hend hne
    exact ⟨hne, hend⟩
  | cons w ws ih =>
    obtain ⟨hc, hw, ha⟩ := h 0 (Nat.succ_pos _)
    rw [BitVec.add_zero] at hc ha
    rw [List.length_cons, add_ofNat_succ] at hend hne
    refine ⟨ha, hc, hw, ih (fun k hk => ?_) hend hne⟩
    simpa only [add_ofNat_succ, List.getElem_cons_succ] using h (k + 1) (Nat.succ_lt_succ hk)

/-- A string away from KBSR does not go round: it has fewer words than there are addresses. -/
theorem length_lt_of_ne_kbsr {a : Word} {n : Nat} (h : ∀ k < n, a + BitVec.ofNat 16 k ≠ 0xFE00) : n < 65536 := by
  by_contra hn
  have hlt := (0xFE00 - a).isLt
  refine h (0xFE00 - a).toNat (by omega) ?_
  rw [BitVec.ofNat_toNat, BitVec.setWidth_eq, add_sub_cancel]

/-- A string service over a string emits its bytes in its step. -/
theorem State.stringService_string (f : Word → List Byte) (held : Word → Hold) {s : State} {a : Word} {ws : List Word}
    (h : StringAt s a ws) (hlen : ws.length < 65536) : s.stringService f held a = s.outBytes (ws.flatMap f) := by
  have hfuel : s.stringFuel = (s.stringFuel - ws.length - 1) + ws.length + 1 := by
    unfold State.stringFuel
    omega
  unfold State.stringService
  rw [hfuel, stringLoop_string f _ h]
  rfl

/-- Settles O37: the string fits in the fuel, and its loop makes no poll. -/
theorem stringServicesEmitTheString : Obligations.StringServicesEmitTheString := by
  intro u s ws hcells hend hne
  have hstr : StringAt s.link (s.reg .r0) ws := stringAt_of_cells hcells hend hne
  have hlen := length_lt_of_ne_kbsr fun k hk => (hcells k hk).2.2
  have hputs := State.stringService_string putsBytes .puts hstr hlen
  have hputsp := State.stringService_string putspBytes .putsp hstr hlen
  refine ⟨⟨_, (exec_puts u s).trans (congrArg _ hputs), ?_, s.cell_link, ⟨rfl, rfl, rfl⟩, ⟨rfl, rfl, rfl⟩⟩,
    ⟨_, (exec_putsp u s).trans (congrArg _ hputsp), rfl, s.cell_link, ⟨rfl, rfl, rfl⟩, ⟨rfl, rfl, rfl⟩⟩⟩
  exact congrArg (s.outq ++ ·) (List.flatMap_pure_eq_map low8 ws)

/-! ### A string in progress -/

theorem putspBytes_ne_nil (w : Word) : putspBytes w ≠ [] := by
  unfold putspBytes
  split <;> exact List.cons_ne_nil _ _

/-- Each word printed emits a byte at least. -/
theorem ne_nil_of_isStringService {f : Word → List Byte} {held : Word → Hold} (h : isStringService f held) (w : Word) :
    f w ≠ [] := by
  rcases h with ⟨rfl, -⟩ | ⟨rfl, -⟩
  · exact List.cons_ne_nil _ _
  · exact putspBytes_ne_nil w

/-- A string service in progress goes on as the service, from the address it holds. -/
theorem step_stringService {f : Word → List Byte} {held : Word → Hold} (hf : isStringService f held) {a : Word} {s : State}
    (hs : s.status = .running) (hh : s.hold = some (held a)) :
    step s = .next (({ s with hold := none } : State).stringService f held a) := by
  rw [step_held hs hh]
  rcases hf with ⟨rfl, rfl⟩ | ⟨rfl, rfl⟩ <;> rfl

/-- Settles O42: the step is the service from the held address. -/
theorem stringInProgressGoesOn : Obligations.StringInProgressGoesOn := by
  intro f held a s hf hs hh hw
  obtain ⟨hregs, hcond, hpc, hstatus⟩ := keeps_stringService { s with hold := none } f held a
  exact ⟨_, step_stringService hf hs hh, State.stringService_step .., hregs,
    memKeptBut_stringService (s := { s with hold := none }) hw f held a, hpc, hcond rfl, hstatus.trans hs,
    State.stringService_fault ..⟩

/-! ### A string over many steps -/

/-- A loop ends in one state. -/
theorem prints_unique {f : Word → List Byte} {a : Word} {s t u : State} (ht : Prints f a s t) (hu : Prints f a s u) :
    t = u := by
  induction ht with
  | stop hz =>
    cases hu with
    | stop _ => rfl
    | more hz' _ => exact absurd hz hz'
  | more hz _ ih =>
    cases hu with
    | stop hz' => exact absurd hz' hz
    | more _ hu' => exact ih hu'

/-- Each word printed on its way has emitted a byte at least. -/
theorem printsOn_outq {f : Word → List Byte} (hf : ∀ w, f w ≠ []) {n : Nat} {a b : Word} {s m : State}
    (h : PrintsOn f n a s b m) : ∃ bs, m.outq = s.outq ++ bs ∧ n ≤ bs.length := by
  induction h with
  | @here a s => exact ⟨[], (List.append_nil _).symm, Nat.le_refl 0⟩
  | @more n a b s m _ _ ih =>
    obtain ⟨bs, ho, hn⟩ := ih
    have hpos := List.length_pos_of_ne_nil (hf (s.memRead a).1)
    refine ⟨f (s.memRead a).1 ++ bs, ?_, ?_⟩
    · rw [ho, State.outBytes_outq, State.memRead_outq, List.append_assoc]
    · rw [List.length_append]
      omega

/-- The state `m` of a loop on its way, with its service in progress at address `b`. -/
def State.inProgress (m : State) (held : Word → Hold) (b : Word) : State := { m with hold := some (held b) }

/-- A state inside a step of a string service: running, its hold taken up. -/
structure Going (s : State) : Prop where
  running : s.status = .running
  noHold : s.hold = none

theorem Going.printed {s : State} (h : Going s) (f : Word → List Byte) (a : Word) :
    Going ((s.memRead a).2.outBytes (f (s.memRead a).1)) :=
  ⟨(s.memRead_status a).trans h.running, (s.memRead_hold a).trans h.noHold⟩

theorem Going.printsOn {f : Word → List Byte} {n : Nat} {a b : Word} {s m : State} (h : Going s)
    (hp : PrintsOn f n a s b m) : Going m := by
  rw [printsOn_frame hp]
  exact ⟨h.running, h.noHold⟩

/-- One step of a string service in progress, by what its loop does: it comes to the loop's end, or to a later point on its
way. -/
theorem Going.stepN_cases {s : State} (h : Going s) {f : Word → List Byte} {held : Word → Hold} (hf : isStringService f held)
    (a : Word) :
    (∃ t, Prints f a s t ∧ ∀ j, stepN (j + 1) (s.inProgress held a) = stepN j t) ∨
    (∃ n b m, 65536 ≤ n ∧ PrintsOn f n a s b m ∧
      ∀ j, stepN (j + 1) (s.inProgress held a) = stepN j (m.inProgress held b)) := by
  have hlift : ({ s.inProgress held a with hold := none } : State) = s := by rw [← h.noHold]; rfl
  have hstep := step_stringService (s := s.inProgress held a) hf h.running rfl
  rw [hlift] at hstep
  have hnext (j : Nat) : stepN (j + 1) (s.inProgress held a) = stepN j (s.stringService f held a) := by rw [stepN, hstep]
  rcases s.stringService_step f held a with hp | ⟨n, b, m, hn, hp, e⟩
  · exact .inl ⟨_, hp, hnext⟩
  · exact .inr ⟨n, b, m, hn, hp, fun j => (hnext j).trans (congrArg (stepN j) e)⟩

/-- A string in progress comes to its loop's end if every later point on the way does. -/
theorem Going.ends_of_later {s t : State} (h : Going s) {f : Word → List Byte} {held : Word → Hold}
    (hf : isStringService f held) {a : Word} (ht : Prints f a s t)
    (hlater : ∀ n b m, 0 < n → PrintsOn f n a s b m → ∃ j, stepN j (m.inProgress held b) = some t) :
    ∃ j, stepN j (s.inProgress held a) = some t := by
  rcases h.stepN_cases hf a with ⟨u, hu, hnext⟩ | ⟨n, b, m, hn, hp, hnext⟩
  · exact ⟨1, by rw [hnext, prints_unique ht hu]; rfl⟩
  · obtain ⟨j, hj⟩ := hlater n b m (by omega) hp
    exact ⟨j + 1, (hnext j).trans hj⟩

/-- From any later point on its way a string in progress comes to its loop's end: by induction on the loop, which has no later
point at its end. -/
theorem Going.later_ends {s t : State} (h : Going s) {f : Word → List Byte} {held : Word → Hold}
    (hf : isStringService f held) {a : Word} (ht : Prints f a s t) (n : Nat) (b : Word) (m : State) (hn : 0 < n)
    (hp : PrintsOn f n a s b m) : ∃ j, stepN j (m.inProgress held b) = some t := by
  induction ht generalizing n b m with
  | stop hz =>
    cases hp with
    | here => exact absurd hn (Nat.lt_irrefl 0)
    | more hz' _ => exact absurd hz hz'
  | @more a s t _ ht ih =>
    have hgoing := h.printed f a
    cases hp with
    | here => exact absurd hn (Nat.lt_irrefl 0)
    | @more n _ _ _ _ _ hp =>
      cases n with
      | zero =>
        cases hp
        exact hgoing.ends_of_later hf ht (ih hgoing)
      | succ n => exact ih hgoing (n + 1) b m (Nat.succ_pos n) hp

/-- A string whose loop never ends stays in progress, with a cycle of addresses printed in every step. -/
theorem Going.hangs {s : State} (h : Going s) {f : Word → List Byte} {held : Word → Hold} (hf : isStringService f held)
    {a : Word} (hnever : ¬∃ t, Prints f a s t) (j : Nat) :
    ∃ t, stepN j (s.inProgress held a) = some t ∧ t.status = .running ∧ (∃ b, t.hold = some (held b)) ∧
      ∃ bs, t.outq = s.outq ++ bs ∧ 65536 * j ≤ bs.length := by
  induction j generalizing s a with
  | zero => exact ⟨_, rfl, h.running, ⟨a, rfl⟩, [], (List.append_nil _).symm, Nat.le_refl 0⟩
  | succ j ih =>
    rcases h.stepN_cases hf a with ⟨t, ht, -⟩ | ⟨n, b, m, hn, hp, hnext⟩
    · exact absurd ⟨t, ht⟩ hnever
    · obtain ⟨t, ht, hs, hh, bs, hout, hlen⟩ := ih (h.printsOn hp) fun ⟨t, ht⟩ => hnever ⟨t, prints_of_printsOn hp ht⟩
      obtain ⟨cs, hcs, hc⟩ := printsOn_outq (ne_nil_of_isStringService hf) hp
      refine ⟨t, (hnext j).trans ht, hs, hh, cs ++ bs, ?_, ?_⟩
      · rw [hout, hcs, List.append_assoc]
      · rw [List.length_append]
        omega

/-- Settles O43: a loop that ends, by induction on the loop; one that does not, by induction on the steps. -/
theorem stringEndsExactlyWhenItsLoopDoes : Obligations.StringEndsExactlyWhenItsLoopDoes := by
  intro f held a s hf hs hh
  have hgoing : Going { s with hold := none } := ⟨hs, rfl⟩
  have heq : State.inProgress { s with hold := none } held a = s := by rw [State.inProgress, ← hh]
  have hends {t : State} (ht : Prints f a { s with hold := none } t) := hgoing.ends_of_later hf ht (hgoing.later_ends hf ht)
  have hhangs (hnever : ¬∃ t, Prints f a { s with hold := none } t) := hgoing.hangs hf hnever
  rw [heq] at hends hhangs
  exact ⟨fun _ ht => hends ht, hhangs⟩

end Sys2Proof.Machine
end

section
/-! SUPPORT. The step and the reserved opcodes (60_exceptions.md R170 to R173, R176): what a fetch runs, that every instruction
answers a next state, and the fault of the two reserved opcodes. -/

namespace Sys2Proof.Machine

open Sys2Proof.Safety

/-! ### What a step runs -/

/-- Settles O44: the fetch is the read at `pc` with `pc` moved on. -/
theorem stepRunsDecodedInstruction : Obligations.StepRunsDecodedInstruction := fun _ hs hh => step_running hs hh

/-- Settles O45: the fetch reads the cell and changes `pc` alone, and the word decodes to its instruction. -/
theorem stepRunsEncodedInstruction : Obligations.StepRunsEncodedInstruction := by
  intro s i hs hh hpc hi hcell
  rw [step_running hs hh, State.fetch_plain hpc, hcell, decode_encode hi]
  rfl

/-- The state a word is placed in: running, no service in progress, `pc` at the slot of the next fetch. -/
def State.atFetchSlot (s : State) : State := { s with pc := s.fetchSlot, status := .running, hold := none }

/-- Placing a word is a write to the cell at `pc` of that state. -/
theorem State.withFetchWord_eq (s : State) (nbits w : Nat) :
    s.withFetchWord nbits w = s.atFetchSlot.memWrite s.atFetchSlot.pc (BitVec.ofNat 16 w) := rfl

/-- The slot of the next fetch is never KBSR, so its fetch does not poll. -/
theorem State.fetchSlot_ne_kbsr (s : State) : s.fetchSlot ≠ Config.kbsrAddr := by
  rw [State.fetchSlot]
  split
  · decide
  · assumption

/-- Settles O46: the placed word is in the cell at `pc`, which is not KBSR, of a running core with no service in progress. -/
theorem placedWordRunsNext : Obligations.PlacedWordRunsNext := by
  intro s nbits w hw _
  rw [State.withFetchWord_eq]
  exact step_memWrite_pc (m := s.atFetchSlot) hw rfl rfl s.fetchSlot_ne_kbsr _

/-! ### A running core always steps -/

/-- Every instruction answers a next state, by the five shapes it can have. -/
theorem exec_answers (i : Instr) (s : State) : ∃ t, exec i s = .next t := by
  rcases exec_cases i s with ⟨_, _, _, -, -, -, -, -, -, -, e⟩ | ⟨_, _, _, -, -, -, -, e⟩ | ⟨_, -, -, e | ⟨-, e⟩⟩ |
    ⟨_, -, e⟩ | ⟨_, -, e⟩ <;> exact ⟨_, e⟩

/-- Settles O48: a service in progress goes on, any other running core runs its instruction, and a terminal state stops. -/
theorem runningCoreAlwaysSteps : Obligations.RunningCoreAlwaysSteps := by
  refine fun s => ⟨fun hs => ?_, fun hs => by rw [step, hs], fun hs => by rw [step, hs]⟩
  cases hh : s.hold with
  | some k => exact ⟨_, step_held hs hh⟩
  | none =>
    rw [step_running hs hh]
    exact exec_answers _ _

/-! ### The reserved opcodes -/

/-- RTI and RES are the fault, with their own word. -/
theorem exec_reserved {i : Instr} {u : BitVec 12} (hi : i = .rti u ∨ i = .res u) (s : State) :
    exec i s = .next (s.raiseFault .reservedOpcode (encode i)) := by
  rcases hi with rfl | rfl <;> rfl

/-- Settles O39: the fault writes the record and the run state alone. -/
theorem reservedOpcodesFault : Obligations.ReservedOpcodesFault := fun _ s _ hi =>
  ⟨_, exec_reserved hi s, rfl, rfl, rfl, rfl, fun _ _ => rfl, s.cell_raiseFault _ _, rfl, rfl, ⟨rfl, rfl, rfl⟩, rfl, rfl⟩

end Sys2Proof.Machine
end

section
/-! SUPPORT. The loader cell by cell (70_reset_and_hazards.md R205), and the statement about it. -/

namespace Sys2Proof.Machine

/-- The two bytes of a word, most significant first, are the word. -/
theorem high8_append_low8 (w : Word) : high8 w ++ low8 w = w :=
  (BitVec.extractLsb'_append_extractLsb'_eq_extractLsb' (show 8 = 0 + 8 from rfl)).trans BitVec.extractLsb'_eq_self

/-- The words of a big-endian byte stream are the words it was made of. -/
theorem imageWords_flatMap_bytes (ws : List Word) : imageWords (ws.flatMap fun w => [high8 w, low8 w]) = ws := by
  induction ws with
  | nil => rfl
  | cons w ws ih =>
    rw [List.flatMap_cons]
    exact congrArg₂ List.cons (high8_append_low8 w) ih

/-- The image of an origin and words is those words, placed from the origin on. -/
theorem loadImage_flatMap_bytes (origin : Word) (ws : List Word) (m : Memory) :
    loadImage ((origin :: ws).flatMap fun w => [high8 w, low8 w]) m = loadWords origin.toNat ws m := by
  rw [loadImage, imageWords_flatMap_bytes]

/-- A cell below the first word or after the last one stays. -/
theorem Memory.read_loadWords_outside {a b : Nat} {ws : List Word} {m : Memory} (h : m.wf = true)
    (hb : b < a ∨ a + ws.length ≤ b) : (loadWords a ws m).read b = m.read b := by
  induction ws generalizing a m with
  | nil => rfl
  | cons w ws ih =>
    rw [List.length_cons] at hb
    rw [loadWords]
    split
    next ha =>
      rw [ih (Memory.wfFrom_write (Nat.zero_le a) ha h) (by omega), Memory.read_write h, if_neg (by omega)]
    next => rfl

/-- The cell `k` places after the first, up to the last address, gets word `k`: later words leave it. -/
theorem Memory.read_loadWords_inside {a k : Nat} {ws : List Word} {m : Memory} (h : m.wf = true)
    (hk : k < ws.length) (hak : a + k < 65536) : (loadWords a ws m).read (a + k) = ws[k] := by
  induction ws generalizing a k m with
  | nil => exact absurd hk (Nat.not_lt_zero k)
  | cons w ws ih =>
    have ha : a < 65536 := by omega
    have hwf := Memory.wfFrom_write (v := w) (Nat.zero_le a) ha h
    rw [loadWords, if_pos ha]
    cases k with
    | zero =>
      rw [Memory.read_loadWords_outside hwf (by omega), Memory.read_write h]
      exact if_pos rfl
    | succ k =>
      rw [show a + (k + 1) = a + 1 + k by omega]
      exact ih hwf (Nat.lt_of_succ_lt_succ hk) (by omega)

/-- Settles O57: the bytes give the words back, which are written one cell after the other from the origin on. -/
theorem loaderPlacesImageAtOrigin : Obligations.LoaderPlacesImageAtOrigin := by
  intro origin ws m a hm
  rw [loadImage_flatMap_bytes]
  refine ⟨fun k hk ha => ?_, Memory.read_loadWords_outside hm⟩
  have hlt : origin.toNat + k < 65536 := ha ▸ a.isLt
  rw [ha]
  exact Memory.read_loadWords_inside hm hk hlt

end Sys2Proof.Machine
end
